-- ==== Sys2Proof/Word.lean ====
section
/-! DEFINITION. The word and byte types of the core (00_scope.md R5, R6): registers and memory words are
32 bits, memory bytes are 8 bits, bit 0 is the least significant. Wrapping arithmetic is `BitVec`'s own. -/

namespace Sys2Proof

/-- A register value or memory word: an unsigned 32-bit integer (R6). -/
abbrev Word := BitVec 32

/-- A memory byte: an unsigned 8-bit integer (R6). -/
abbrev Byte := BitVec 8

end Sys2Proof
end

