-- ==== Sys2Proof/Config.lean ====
section
/-! DEFINITION. The implementation parameters of 00_scope.md R5 that are data: MEMSIZE, NREG, SHIFT_OOR and
LDB_MODE. The reference values stand in Sys2Proof/Machine/Reference.lean. The parameters `decode`, `img` and
`STOP_PC` are arguments of the functions that use them (Machine/Sequencer.lean, Machine/HostView.lean, Safety.lean). -/

namespace Sys2Proof

/-- `SHIFT_OOR` (R5, R100): what Lsh and Ash do when the shift magnitude is 32 or more. -/
inductive ShiftOor where
  /-- the step raises ShiftOutOfRange -/
  | fault
  /-- the unbounded-integer reading of the shift operators -/
  | saturate
  /-- the magnitude is taken modulo 32 -/
  | mask5
deriving DecidableEq, Repr

/-- `LDB_MODE` (R5, R133): how Ldb combines the byte with its destination. -/
inductive LdbMode where
  /-- the old destination is ANDed with the byte -/
  | andMerge
  /-- the byte replaces the destination -/
  | overwrite
deriving DecidableEq, Repr

/-- The parameters of R5 that are data. They are fixed for one machine: no step changes them. -/
structure Config where
  /-- `MEMSIZE`: memory length in bytes -/
  memSize : Nat
  /-- `NREG`: the number of general registers R0 … R(NREG−1) -/
  nreg : Nat
  /-- `SHIFT_OOR` -/
  shiftOor : ShiftOor
  /-- `LDB_MODE` -/
  ldbMode : LdbMode
deriving DecidableEq, Repr

/-- The constraint column of R5: 4 ≤ MEMSIZE ≤ 2^32 and 1 ≤ NREG ≤ 255. -/
abbrev Config.wf (c : Config) : Prop :=
  4 ≤ c.memSize ∧ c.memSize ≤ 2 ^ 32 ∧ 1 ≤ c.nreg ∧ c.nreg ≤ 255

/-- What reading a general register outside the enumeration R0 … R(NREG−1) gives. R53 calls such an operand
unrepresentable and no `DecodedInstruction` holds one, so no step reads it and nothing is known of the value (a free value,
DESIGN CHOICE, log 4). -/
opaque Config.absentRegister : Nat → Word

end Sys2Proof
end

