-- ==== Sys2Proof/Machine/Reference.lean ====
section
/-! DEFINITION. The reference configuration: the default column of 00_scope.md R5. -/

namespace Sys2Proof

/-- "A model that instantiates the defaults is the reference configuration" (R5): MEMSIZE 640,000 (C1),
NREG 32, SHIFT_OOR = fault, LDB_MODE = and_merge. -/
def Config.reference : Config :=
  { memSize := 640000, nreg := 32, shiftOor := .fault, ldbMode := .andMerge }

end Sys2Proof
end

