-- ==== Sys2Proof/Syntax.lean ====
section
/-! DEFINITION. Register identifiers (10_state.md R16) and decoded instructions (30_encoding.md R51, R52): one
constructor of `Instr` per row of spec/opcode_table.json, operands in the order rA, rB or imm, rC (R12). -/

namespace Sys2Proof

/-- A register identifier (R16): a general register by number, or the program counter, which any operand may
name (R17, R53). Which numbers exist depends on NREG: `Reg.existsIn` in WellFormed.lean. -/
inductive Reg where
  /-- general register R`n` -/
  | r (n : Nat)
  /-- the program counter -/
  | pc
deriving DecidableEq, Repr

/-- An instruction as a term (R51, R52). What a decoder answers is a `DecodedInstruction` (WellFormed.lean), whose
registers exist on the machine (R53). -/
inductive Instr where
  /-- Nop, shape N (R77) -/
  | nop
  /-- Add, shape RRR (R91) -/
  | add (rA rB rC : Reg)
  /-- Sub, shape RRR (R92) -/
  | sub (rA rB rC : Reg)
  /-- And, shape RRR (R93) -/
  | and (rA rB rC : Reg)
  /-- Orr, shape RRR (R94) -/
  | orr (rA rB rC : Reg)
  /-- Xor, shape RRR (R95) -/
  | xor (rA rB rC : Reg)
  /-- Not, shape RR (R96; C9: no rC) -/
  | not (rA rB : Reg)
  /-- Lsh, shape RRR (R98) -/
  | lsh (rA rB rC : Reg)
  /-- Ash, shape RRR (R99) -/
  | ash (rA rB rC : Reg)
  /-- Tcu, shape RRR (R101) -/
  | tcu (rA rB rC : Reg)
  /-- Tcs, shape RRR (R102) -/
  | tcs (rA rB rC : Reg)
  /-- Set, shape RI: the 32-bit constant itself, as the decoded instruction carries it (R54, R120) -/
  | set (rA : Reg) (imm : Word)
  /-- Mov, shape RR (R121) -/
  | mov (rA rB : Reg)
  /-- Ldw, shape RR (R131) -/
  | ldw (rA rB : Reg)
  /-- Stw, shape RR: rA is the address, read, not a destination (R132; C3) -/
  | stw (rA rB : Reg)
  /-- Ldb, shape RR (R133) -/
  | ldb (rA rB : Reg)
  /-- Stb, shape RR: rA is the address, read, not a destination (R134; C3) -/
  | stb (rA rB : Reg)
deriving DecidableEq, Repr

/-- The register operands of an instruction, in the order rA, rB, rC (R52). -/
def Instr.registers : Instr → List Reg
  | .nop => []
  | .add a b c => [a, b, c]
  | .sub a b c => [a, b, c]
  | .and a b c => [a, b, c]
  | .orr a b c => [a, b, c]
  | .xor a b c => [a, b, c]
  | .not a b => [a, b]
  | .lsh a b c => [a, b, c]
  | .ash a b c => [a, b, c]
  | .tcu a b c => [a, b, c]
  | .tcs a b c => [a, b, c]
  | .set a _ => [a]
  | .mov a b => [a, b]
  | .ldw a b => [a, b]
  | .stw a b => [a, b]
  | .ldb a b => [a, b]
  | .stb a b => [a, b]

/-- The register an instruction writes: its rA, for every tag but Nop, Stw and Stb (R79; C3). -/
def Instr.destination : Instr → Option Reg
  | .nop => none
  | .add a _ _ => some a
  | .sub a _ _ => some a
  | .and a _ _ => some a
  | .orr a _ _ => some a
  | .xor a _ _ => some a
  | .not a _ => some a
  | .lsh a _ _ => some a
  | .ash a _ _ => some a
  | .tcu a _ _ => some a
  | .tcs a _ _ => some a
  | .set a _ => some a
  | .mov a _ => some a
  | .ldw a _ => some a
  | .stw _ _ => none
  | .ldb a _ => some a
  | .stb _ _ => none

end Sys2Proof
end

