-- ==== Sys2Proof/WellFormed.lean ====
section
/-! DEFINITION. Which instructions are well formed: every register operand exists for the machine's NREG
(30_encoding.md R53), and Set's constant is one the reference encoding can spell (R61). -/

namespace Sys2Proof

/-- The identifier is a member of the enumeration R0 … R(NREG−1), PC (R16). -/
def Reg.existsIn (nreg : Nat) : Reg → Bool
  | .r n => decide (n < nreg)
  | .pc => true

/-- Every register operand exists (R53). This is all that execution asks of an instruction. -/
def Instr.registersExist (nreg : Nat) (i : Instr) : Bool :=
  i.registers.all (Reg.existsIn nreg)

/-- A decoded instruction for a machine with `nreg` general registers. "An invalid identifier cannot be represented in
a decoded instruction" (R53): the instruction comes with the proof that each of its registers exists. -/
structure DecodedInstruction (nreg : Nat) where
  instr : Instr
  registersExist : instr.registersExist nreg = true
deriving DecidableEq, Repr

/-- The parameter `decode : Word32 -> Option DecodedInstruction` (R55), for each NREG; `none` means that the word spells no
instruction. -/
abbrev Decoder := (nreg : Nat) → Word → Option (DecodedInstruction nreg)

/-- A constant the RI shape can spell: the sign extension of its own low 16 bits (R58, R61). -/
def immediateFits16 (imm : Word) : Bool :=
  decide ((imm.extractLsb' 0 16).signExtend 32 = imm)

/-- The constant an instruction carries, if its shape has one (R52, R54), is one the RI shape can spell. -/
def Instr.immediateFits : Instr → Bool
  | .set _ imm => immediateFits16 imm
  | .nop => true
  | .add _ _ _ => true
  | .sub _ _ _ => true
  | .and _ _ _ => true
  | .orr _ _ _ => true
  | .xor _ _ _ => true
  | .not _ _ => true
  | .lsh _ _ _ => true
  | .ash _ _ _ => true
  | .tcu _ _ _ => true
  | .tcs _ _ _ => true
  | .mov _ _ => true
  | .ldw _ _ => true
  | .stw _ _ => true
  | .ldb _ _ => true
  | .stb _ _ => true

/-- An instruction that has a reference encoding: its registers exist (R53) and its constant fits (R61). -/
def Instr.wellFormed (nreg : Nat) (i : Instr) : Bool :=
  i.registersExist nreg && i.immediateFits

end Sys2Proof
end

