-- ==== Sys2Proof/Decode.lean ====
section
/-! DEFINITION. The spec reference encoding, SRE (30_encoding.md R56–R61): the decoder, total on every word and
every byte string, rejecting by name, and the encoder written from the same tables. The SRE is the default value
of the parameter `decode` (R5, R55), the spec's own choice (D3–D6) and not the upstream layout (log 2). -/

namespace Sys2Proof

/-- Why bits spell no instruction (R60). The machine itself reports only InvalidEncoding(w) (R150). -/
inductive DecodeReject where
  /-- fewer than four bytes were given; every instruction is one word (R50) -/
  | shortInput (available : Nat)
  /-- op ≥ 0x11 (R57, R60) -/
  | unassignedOpcode (op : Byte)
  /-- a register field the shape uses is greater than NREG (R58, R60) -/
  | noSuchRegister (field : Byte)
deriving DecidableEq, Repr

/-- `op`, w[7:0] (R56). -/
def opField (w : Word) : Byte := w.extractLsb' 0 8

/-- `A`, w[15:8] (R56). -/
def fieldA (w : Word) : Byte := w.extractLsb' 8 8

/-- `B`, w[23:16] (R56). -/
def fieldB (w : Word) : Byte := w.extractLsb' 16 8

/-- `C`, w[31:24] (R56). -/
def fieldC (w : Word) : Byte := w.extractLsb' 24 8

/-- `imm16`, w[31:16] (R56). -/
def fieldImm (w : Word) : BitVec 16 := w.extractLsb' 16 16

/-- `reg(f)` of R58: R_f below NREG, PC at NREG, no register above. -/
def regOfField (nreg : Nat) (f : Byte) : Except DecodeReject Reg :=
  if f.toNat < nreg then .ok (.r f.toNat)
  else if f.toNat = nreg then .ok .pc
  else .error (.noSuchRegister f)

/-- Shape RRR (R56, R58). -/
def decodeRRR (nreg : Nat) (mk : Reg → Reg → Reg → Instr) (w : Word) : Except DecodeReject Instr := do
  let a ← regOfField nreg (fieldA w)
  let b ← regOfField nreg (fieldB w)
  let c ← regOfField nreg (fieldC w)
  return mk a b c

/-- Shape RR: bits 31:24 are ignored (R56, R58, R59). -/
def decodeRR (nreg : Nat) (mk : Reg → Reg → Instr) (w : Word) : Except DecodeReject Instr := do
  let a ← regOfField nreg (fieldA w)
  let b ← regOfField nreg (fieldB w)
  return mk a b

/-- Shape RI: the constant is sign-extended to 32 bits (R56, R58). -/
def decodeRI (nreg : Nat) (mk : Reg → Word → Instr) (w : Word) : Except DecodeReject Instr := do
  let a ← regOfField nreg (fieldA w)
  return mk a ((fieldImm w).signExtend 32)

/-- `decodeSRE` with the reason of a rejection (R57, R58, R60). -/
def decodeNamed (nreg : Nat) (w : Word) : Except DecodeReject Instr :=
  match (opField w).toNat with
  | 0x00 => .ok .nop
  | 0x01 => decodeRRR nreg .add w
  | 0x02 => decodeRRR nreg .sub w
  | 0x03 => decodeRRR nreg .and w
  | 0x04 => decodeRRR nreg .orr w
  | 0x05 => decodeRRR nreg .xor w
  | 0x06 => decodeRR nreg .not w
  | 0x07 => decodeRRR nreg .lsh w
  | 0x08 => decodeRRR nreg .ash w
  | 0x09 => decodeRRR nreg .tcu w
  | 0x0A => decodeRRR nreg .tcs w
  | 0x0B => decodeRI nreg .set w
  | 0x0C => decodeRR nreg .mov w
  | 0x0D => decodeRR nreg .ldw w
  | 0x0E => decodeRR nreg .stw w
  | 0x0F => decodeRR nreg .ldb w
  | 0x10 => decodeRR nreg .stb w
  | _ => .error (.unassignedOpcode (opField w))

/-- `decodeSRE` (R55, R58): the instruction the machine reads from a word, with `referenceDecoder` below. -/
def decodeSRE (nreg : Nat) (w : Word) : Option Instr := (decodeNamed nreg w).toOption

/-- The instruction `i` as a decoded one, if its registers exist (R53). -/
def DecodedInstruction.ofInstr (nreg : Nat) (i : Instr) : Option (DecodedInstruction nreg) :=
  if h : i.registersExist nreg = true then some ⟨i, h⟩ else none

/-- `decodeSRE` as a value of the parameter `decode`: the default of R5 (R53, R55). `ofInstr` only attaches the proof;
it rejects no instruction `decodeSRE` gives (`map_instr_referenceDecoder`, Laws/Decode.lean). -/
def referenceDecoder : Decoder := fun nreg w => (decodeSRE nreg w).bind (DecodedInstruction.ofInstr nreg)

/-- Four bytes, lowest address first, as one little-endian word (R35, R38). -/
def wordOfBytes (b0 b1 b2 b3 : Byte) : Word := b3 ++ b2 ++ b1 ++ b0

/-- Byte `k` of a word, k = 0 … 3, byte 0 least significant (R35, R37). -/
def byteOfWord (w : Word) (k : Nat) : Byte := w.extractLsb' (8 * k) 8

/-- Decoding from bytes, lowest address first: the first instruction and the bytes after it. -/
def decodeBytes (nreg : Nat) : List Byte → Except DecodeReject (Instr × List Byte)
  | b0 :: b1 :: b2 :: b3 :: rest =>
    match decodeNamed nreg (wordOfBytes b0 b1 b2 b3) with
    | .ok i => .ok (i, rest)
    | .error e => .error e
  | short => .error (.shortInput short.length)

/-! ### The encoder (R61) -/

/-- `enc(R_k) = k ; enc(PC) = NREG` (R61). -/
def Reg.code (nreg : Nat) : Reg → Byte
  | .r n => BitVec.ofNat 8 n
  | .pc => BitVec.ofNat 8 nreg

/-- `encodeRRR`: C, B, A, op from bit 31 down (R56, R61). -/
def encodeRRR (nreg : Nat) (op : Byte) (a b c : Reg) : Word :=
  c.code nreg ++ b.code nreg ++ a.code nreg ++ op

/-- `encodeRR`: the ignored bits 31:24 are written 0 (R59, R61). -/
def encodeRR (nreg : Nat) (op : Byte) (a b : Reg) : Word :=
  (0 : Byte) ++ b.code nreg ++ a.code nreg ++ op

/-- `encodeRI`: the low 16 bits of the constant in bits 31:16 (R61). -/
def encodeRI (nreg : Nat) (op : Byte) (a : Reg) (imm : Word) : Word :=
  imm.extractLsb' 0 16 ++ a.code nreg ++ op

/-- `encodeN`: the ignored bits 31:8 are written 0 (R59, R61). -/
def encodeN (op : Byte) : Word := (0 : BitVec 24) ++ op

/-- The opcode of R57. -/
def Instr.opcode : Instr → Byte
  | .nop => 0x00
  | .add _ _ _ => 0x01
  | .sub _ _ _ => 0x02
  | .and _ _ _ => 0x03
  | .orr _ _ _ => 0x04
  | .xor _ _ _ => 0x05
  | .not _ _ => 0x06
  | .lsh _ _ _ => 0x07
  | .ash _ _ _ => 0x08
  | .tcu _ _ _ => 0x09
  | .tcs _ _ _ => 0x0A
  | .set _ _ => 0x0B
  | .mov _ _ => 0x0C
  | .ldw _ _ => 0x0D
  | .stw _ _ => 0x0E
  | .ldb _ _ => 0x0F
  | .stb _ _ => 0x10

/-- The canonical word of an instruction (R61); meant for well-formed ones (`Instr.wellFormed`). -/
def encode (nreg : Nat) (i : Instr) : Word :=
  match i with
  | .nop => encodeN i.opcode
  | .add a b c => encodeRRR nreg i.opcode a b c
  | .sub a b c => encodeRRR nreg i.opcode a b c
  | .and a b c => encodeRRR nreg i.opcode a b c
  | .orr a b c => encodeRRR nreg i.opcode a b c
  | .xor a b c => encodeRRR nreg i.opcode a b c
  | .not a b => encodeRR nreg i.opcode a b
  | .lsh a b c => encodeRRR nreg i.opcode a b c
  | .ash a b c => encodeRRR nreg i.opcode a b c
  | .tcu a b c => encodeRRR nreg i.opcode a b c
  | .tcs a b c => encodeRRR nreg i.opcode a b c
  | .set a imm => encodeRI nreg i.opcode a imm
  | .mov a b => encodeRR nreg i.opcode a b
  | .ldw a b => encodeRR nreg i.opcode a b
  | .stw a b => encodeRR nreg i.opcode a b
  | .ldb a b => encodeRR nreg i.opcode a b
  | .stb a b => encodeRR nreg i.opcode a b

/-! ### The host's question -/

/-- The word whose bits are the low `nbits` bits of `w`, the bits above being 0. -/
def tableWord (nbits w : Nat) : Word := BitVec.ofNat 32 (w % 2 ^ nbits)

/-- The instruction the decoder reads, in the reference configuration, from the four bytes of that word laid out as
memory holds them (R38). -/
def decodeTableWord (nbits w : Nat) : Option Instr :=
  let t := tableWord nbits w
  (decodeBytes Config.reference.nreg
    [byteOfWord t 0, byteOfWord t 1, byteOfWord t 2, byteOfWord t 3]).toOption.map Prod.fst

end Sys2Proof
end

