-- ==== Sys2Proof/Machine/State.lean ====
section
/-! DEFINITION. The state of the core (10_state.md R16–R28): the register file with PC, the memory and the run
state, with the parameters of 00_scope.md R5 carried beside them (log 1); the fault record (60_exceptions.md
R150–R153); the reasons a step of the model can stop; construction and reset (R28, R180). -/

namespace Sys2Proof.Machine

/-- Which access raised an OutOfBounds fault (R150, R153). -/
inductive AccessKind where
  | fetch
  | load
  | store
deriving DecidableEq, Repr

/-- The two access widths (R41). -/
inductive AccessSize where
  | byte
  | word
deriving DecidableEq, Repr

/-- Which shift raised a ShiftOutOfRange fault (R153). -/
inductive ShiftTag where
  | lsh
  | ash
deriving DecidableEq, Repr

/-- A fault kind with its info (R150, R153). -/
inductive FaultCause where
  /-- an access of `size` bytes at `addr` with `addr + size > MEMSIZE` -/
  | outOfBounds (kind : AccessKind) (addr : Word) (size : AccessSize)
  /-- the fetched word spells no instruction -/
  | invalidEncoding (word : Word)
  /-- a shift magnitude of 32 or more under `SHIFT_OOR = fault`; `amount` is x[rC] -/
  | shiftOutOfRange (tag : ShiftTag) (amount : Word)
deriving DecidableEq, Repr

/-- What `Faulted(kind, info)` records (R153). -/
structure FaultRecord where
  cause : FaultCause
  /-- `fault_pc`: the fetch address of the faulting step -/
  faultPc : Word
deriving DecidableEq, Repr

/-- The run state (R22). -/
inductive RunState where
  | running
  | faulted (record : FaultRecord)
deriving DecidableEq, Repr

/-- Memory as a list of (address, byte) pairs in one canonical form, `Memory.wf` in Ops.lean: addresses
strictly rising, no entry equal to what an unlisted address reads as (log 5). -/
abbrev Memory := List Host.Cell

/-- The state (R16–R23) and the parameters (R5). -/
structure State where
  /-- R0 … R(NREG−1), by ordinal (R16, R18) -/
  regs : List Word
  /-- the program counter, a register like the others (R17) -/
  pc : Word
  /-- mem[0 … MEMSIZE−1] (R23) -/
  mem : Memory
  /-- Running or Faulted(kind, info) (R22) -/
  run : RunState
  /-- MEMSIZE, NREG, SHIFT_OOR, LDB_MODE: fixed for one machine, changed by no step (R5) -/
  cfg : Config
deriving DecidableEq, Repr

/-- Why a step of the model stops. -/
inductive Fault where
  /-- Raised by `stepWith` alone: a step was asked of a core whose run state is Faulted, and the spec gives it no
  transition ("no step is taken from Faulted", R87, R156; treatment `stuck` of U11). The answer, with the record, is the
  model's own (log 3). The faults of R150 themselves are NOT this: they are next states with `run` Faulted (log 3).
  Safe: the machine goes nowhere. -/
  | stopped (record : FaultRecord)
deriving DecidableEq, Repr

/-- Why the model gives an instruction no meaning. -/
inductive Refusal where
  /-- Raised by an arm of `exec` whose instruction has no meaning yet. Every instruction has its meaning, so nothing
  raises it. Safe: no next state is claimed. -/
  | notModelled (mnemonic : String)
deriving DecidableEq, Repr

/-- What a step or a meaning answers. -/
abbrev Result := Host.Outcome State Fault Refusal

/-- Construction for given parameters (R28, R180): every register, PC included, is 0, every memory byte is 0 and
`run = Running`. -/
def State.construct (c : Config) : State :=
  { regs := List.replicate c.nreg 0, pc := 0, mem := [], run := .running, cfg := c }

/-- The machine right after reset, in the reference configuration, before any image is loaded (R28, R182; the
default image of R5 is empty, log 6). -/
def State.reset : State := State.construct Config.reference

end Sys2Proof.Machine
end

