-- ==== Sys2Proof/Machine/Ops.lean ====
section
/-! DEFINITION. The named operations over memory and registers (10_state.md R19; 20_memory.md R33–R37), the
sequencer's advance (40_sequencer.md R73), and taking a fault as one shared operation (60_exceptions.md R152). -/

namespace Sys2Proof.Machine

/-! ### Memory as data -/

/-- What an unlisted address reads as: memory is "zero-initialized at construction" (R23, R28). -/
def Memory.unlisted : Byte := 0

/-- The canonical form: addresses strictly rising, no entry that an unlisted address would read as anyway. -/
abbrev Memory.wf (m : Memory) : Prop :=
  m.Pairwise (fun p q => p.1 < q.1) ∧ ∀ c ∈ m, c.2 ≠ Memory.unlisted

/-- mem[a] (R31, R34). -/
def Memory.read : Memory → Nat → Byte
  | [], _ => Memory.unlisted
  | (k, b) :: rest, a => if k = a then b else Memory.read rest a

/-- The memory without an entry for `a`. -/
def Memory.eraseCell (m : Memory) (a : Nat) : Memory := m.filter (fun c => c.1 != a)

/-- An entry put in before the first larger address. -/
def Memory.insertCell : Memory → Nat → Byte → Memory
  | [], a, v => [(a, v)]
  | (k, b) :: rest, a, v => if a < k then (a, v) :: (k, b) :: rest else (k, b) :: Memory.insertCell rest a v

/-- mem[a] <- v (R36), kept in canonical form. -/
def Memory.write (m : Memory) (a : Nat) (v : Byte) : Memory :=
  if v = Memory.unlisted then m.eraseCell a else (m.eraseCell a).insertCell a v

/-- Four bytes from `a` up, little-endian (R35). -/
def Memory.readWord (m : Memory) (a : Nat) : Word :=
  wordOfBytes (m.read a) (m.read (a + 1)) (m.read (a + 2)) (m.read (a + 3))

/-- Four bytes from `a` up, little-endian (R37). -/
def Memory.writeWord (m : Memory) (a : Nat) (v : Word) : Memory :=
  (((m.write a (byteOfWord v 0)).write (a + 1) (byteOfWord v 1)).write (a + 2) (byteOfWord v 2)).write
    (a + 3) (byteOfWord v 3)

/-! ### Registers (R19) -/

/-- `get(id)`, `x[r]`. -/
def State.readReg (s : State) : Reg → Word
  | .r n => s.regs.getD n (Config.absentRegister n)
  | .pc => s.pc

/-- `set(id, v)`, `x[r] <- v`: all 32 bits; a write of PC is not special (R17, R78). -/
def State.writeReg (s : State) (r : Reg) (v : Word) : State :=
  match r with
  | .r n => { s with regs := s.regs.set n v }
  | .pc => { s with pc := v }

/-- `PC := PC + 4`, modulo 2^32 (R73). -/
def State.advance (s : State) : State := s.writeReg .pc (s.readReg .pc + 4)

/-! ### Bounded memory accesses -/

/-- The number of bytes an access moves (R41). -/
def AccessSize.bytes : AccessSize → Nat
  | .byte => 1
  | .word => 4

/-- `a + n ≤ MEMSIZE` on unbounded integers (R33). -/
abbrev State.inBounds (s : State) (a : Word) (n : AccessSize) : Prop :=
  a.toNat + n.bytes ≤ s.cfg.memSize

/-- `MemRead(a, 1)` (R34). -/
def State.memReadByte (s : State) (kind : AccessKind) (a : Word) : Except FaultCause Byte :=
  if s.inBounds a .byte then .ok (s.mem.read a.toNat) else .error (.outOfBounds kind a .byte)

/-- `MemRead(a, 4)` (R35). -/
def State.memReadWord (s : State) (kind : AccessKind) (a : Word) : Except FaultCause Word :=
  if s.inBounds a .word then .ok (s.mem.readWord a.toNat) else .error (.outOfBounds kind a .word)

/-- `MemWrite(a, 1, v)` (R36). -/
def State.memWriteByte (s : State) (a : Word) (v : Byte) : Except FaultCause State :=
  if s.inBounds a .byte then .ok { s with mem := s.mem.write a.toNat v }
  else .error (.outOfBounds .store a .byte)

/-- `MemWrite(a, 4, v)`: all four bytes, or none (R37). -/
def State.memWriteWord (s : State) (a : Word) (v : Word) : Except FaultCause State :=
  if s.inBounds a .word then .ok { s with mem := s.mem.writeWord a.toNat v }
  else .error (.outOfBounds .store a .word)

/-! ### Taking a fault (R152, R153) -/

/-- `raise`: from the state before the step, only the run state changes. Registers, PC included, and memory keep
their values, and `fault_pc` is the fetch address (R11, R152, R153; C6). There is no return from a fault (R156). -/
def State.raise (s0 : State) (c : FaultCause) : State :=
  { s0 with run := .faulted { cause := c, faultPc := s0.pc } }

/-- The execution stage of a step from the state `s0` before it: the body runs after the advance, so that x[PC]
reads as a+4 (R71, R74), and a fault it raises rolls the whole step back (R152; log 7). -/
def execute (s0 : State) (body : State → Except FaultCause State) : Result :=
  match body s0.advance with
  | .ok t => .next t
  | .error c => .next (s0.raise c)

/-! ### Fault codes (R151) -/

/-- "OutOfBounds = 1, InvalidEncoding = 2 and ShiftOutOfRange = 3" (R151). -/
def FaultCause.code : FaultCause → Nat
  | .outOfBounds _ _ _ => 1
  | .invalidEncoding _ => 2
  | .shiftOutOfRange _ _ => 3

/-- "fetch = 0, load = 1 and store = 2" (R151). -/
def AccessKind.code : AccessKind → Nat
  | .fetch => 0
  | .load => 1
  | .store => 2

/-! ### Placing bytes from outside the core -/

/-- Bytes of an image from address `i` up, dropping those at `limit` and above (R184). -/
def Memory.load (limit : Nat) : Memory → Nat → List Byte → Memory
  | m, _, [] => m
  | m, i, b :: bs => Memory.load limit (if i < limit then m.write i b else m) (i + 1) bs

/-- The word `w` stored where the next step fetches, with the core made ready to fetch it (log 8). -/
def State.placeFetchWord (s : State) (w : Word) : State :=
  { s with
    run := .running
    mem := Memory.load s.cfg.memSize s.mem s.pc.toNat
      [byteOfWord w 0, byteOfWord w 1, byteOfWord w 2, byteOfWord w 3] }

end Sys2Proof.Machine
end

