-- ==== Sys2Proof/Machine/Operands.lean ====
section
/-! DEFINITION. The operand forms: the signed readings of 00_scope.md R7, the shift amount of 41_alu.md R97, and the
operand shapes of 30_encoding.md R52 as bodies over the register file. The one addressing mode, register-indirect
(43_load_store.md R130), is `readReg` itself. -/

namespace Sys2Proof.Machine

/-- `signed32(v)` (R7). -/
def signed32 (v : Word) : Int := v.toInt

/-- `unsigned32(n)` (R7). -/
def unsigned32 (n : Int) : Word := BitVec.ofInt 32 n

/-- `zext_8(b)` (R7). -/
def zext8 (b : Byte) : Word := b.setWidth 32

/-- Which way a shift goes (R97). -/
inductive ShiftDir where
  | left
  | right
deriving DecidableEq, Repr

/-- The direction of a shift by x[rC] (R97): left for `signed32 ≥ 0`, right below. -/
def shiftDir (c : Word) : ShiftDir := if 0 ≤ signed32 c then .left else .right

/-- The magnitude `k` of a shift by x[rC], on unbounded integers, so that −2^31 gives 2^31 (R97). -/
def shiftMagnitude (c : Word) : Nat := (signed32 c).natAbs

/-- Shape RRR: rA := f(rB, rC), both read before the write (R52, R74). -/
def binary (f : Word → Word → Word) (rA rB rC : Reg) (t : State) : Except FaultCause State :=
  .ok (t.writeReg rA (f (t.readReg rB) (t.readReg rC)))

/-- Shape RRR with a result that may fault; on a fault nothing is written (R100). -/
def binaryOrFault (f : Word → Word → Except FaultCause Word) (rA rB rC : Reg) (t : State) :
    Except FaultCause State :=
  match f (t.readReg rB) (t.readReg rC) with
  | .ok v => .ok (t.writeReg rA v)
  | .error c => .error c

/-- Shape RR with rA as destination: rA := f(rB) (R52, R74). -/
def unary (f : Word → Word) (rA rB : Reg) (t : State) : Except FaultCause State :=
  .ok (t.writeReg rA (f (t.readReg rB)))

/-- Shape RI: rA := imm (R52, R54). -/
def immediate (rA : Reg) (imm : Word) (t : State) : Except FaultCause State :=
  .ok (t.writeReg rA imm)

end Sys2Proof.Machine
end

