-- ==== Sys2Proof/Machine/Flags.lean ====
section
/-! DEFINITION. The core has no flags and no condition codes (10_state.md R24; 41_alu.md R90): no instruction writes one, and
there is no flag computation to give. What takes their place is the three-way compare result, an ordinary word that
Tcu and Tcs write to rA (R101, R102). -/

namespace Sys2Proof.Machine

/-- 1 if greater, the two's-complement encoding of −1 if less, else 0 (R101, R102). -/
def threeWay (greater less : Bool) : Word :=
  if greater then 0x00000001 else if less then 0xFFFFFFFF else 0x00000000

/-- The compare of R101: operands as unsigned. -/
def compareUnsigned (b c : Word) : Word :=
  threeWay (decide (b.toNat > c.toNat)) (decide (b.toNat < c.toNat))

/-- The compare of R102: operands as signed. -/
def compareSigned (b c : Word) : Word :=
  threeWay (decide (signed32 b > signed32 c)) (decide (signed32 b < signed32 c))

end Sys2Proof.Machine
end

