-- ==== Sys2Proof/Machine/Alu.lean ====
section
/-! DEFINITION. The ALU family (41_alu.md): Add, Sub, And, Orr, Xor, Not (R91–R96), the shifts Lsh and Ash
(R97–R100) and the three-way compares Tcu and Tcs (R101, R102). -/

namespace Sys2Proof.Machine

/-- Add (R91): x[rA] <- unsigned32(x[rB] + x[rC]). -/
def execAdd (rA rB rC : Reg) (s : State) : Result :=
  execute s (binary (fun b c => b + c) rA rB rC)

/-- Sub (R92): x[rA] <- unsigned32(x[rB] − x[rC]). -/
def execSub (rA rB rC : Reg) (s : State) : Result :=
  execute s (binary (fun b c => b - c) rA rB rC)

/-- And (R93). -/
def execAnd (rA rB rC : Reg) (s : State) : Result :=
  execute s (binary (fun b c => b &&& c) rA rB rC)

/-- Orr (R94). -/
def execOrr (rA rB rC : Reg) (s : State) : Result :=
  execute s (binary (fun b c => b ||| c) rA rB rC)

/-- Xor (R95). -/
def execXor (rA rB rC : Reg) (s : State) : Result :=
  execute s (binary (fun b c => b ^^^ c) rA rB rC)

/-- Not (R96). -/
def execNot (rA rB : Reg) (s : State) : Result :=
  execute s (unary (fun b => ~~~b) rA rB)

/-! ### Shifts -/

/-- Lsh by a magnitude of 31 or less (R98): `unsigned32(x[rB] << k)` or `x[rB] >>u k`. -/
def lshInRange (dir : ShiftDir) (b : Word) (k : Nat) : Word :=
  match dir with
  | .left => b <<< k
  | .right => b >>> k

/-- Ash by a magnitude of 31 or less (R99): `unsigned32(v * 2^k)` or `unsigned32(floor(v / 2^k))` with
`v = signed32(x[rB])`. The left case is the wrap of D10. (`/` on `Int` rounds toward −∞ for a positive divisor.) -/
def ashInRange (dir : ShiftDir) (b : Word) (k : Nat) : Word :=
  match dir with
  | .left => unsigned32 (signed32 b * 2 ^ k)
  | .right => unsigned32 (signed32 b / 2 ^ k)

/-- `saturate` of the table in R100. -/
def shiftSaturate (tag : ShiftTag) (dir : ShiftDir) (b : Word) : Word :=
  match tag, dir with
  | .lsh, .left => 0
  | .lsh, .right => 0
  | .ash, .left => 0
  | .ash, .right => if b.msb then 0xFFFFFFFF else 0

/-- `mask5` of the table in R100. -/
def shiftMask5 (tag : ShiftTag) (dir : ShiftDir) (k : Nat) (b : Word) : Word :=
  match tag, dir with
  | .lsh, .left => b <<< (k % 32)
  | .lsh, .right => b >>> (k % 32)
  | .ash, .left => b <<< (k % 32)
  | .ash, .right => b.sshiftRight (k % 32)

/-- `shiftOOR(tag, dir, k, b, c)` for k ≥ 32 (R100). -/
def shiftOOR (mode : ShiftOor) (tag : ShiftTag) (dir : ShiftDir) (k : Nat) (b c : Word) :
    Except FaultCause Word :=
  match mode with
  | .fault => .error (.shiftOutOfRange tag c)
  | .saturate => .ok (shiftSaturate tag dir b)
  | .mask5 => .ok (shiftMask5 tag dir k b)

/-- Lsh's result (R98). -/
def lshResult (mode : ShiftOor) (b c : Word) : Except FaultCause Word :=
  if shiftMagnitude c ≤ 31 then .ok (lshInRange (shiftDir c) b (shiftMagnitude c))
  else shiftOOR mode .lsh (shiftDir c) (shiftMagnitude c) b c

/-- Ash's result (R99). -/
def ashResult (mode : ShiftOor) (b c : Word) : Except FaultCause Word :=
  if shiftMagnitude c ≤ 31 then .ok (ashInRange (shiftDir c) b (shiftMagnitude c))
  else shiftOOR mode .ash (shiftDir c) (shiftMagnitude c) b c

/-- Lsh (R98). -/
def execLsh (rA rB rC : Reg) (s : State) : Result :=
  execute s (binaryOrFault (lshResult s.cfg.shiftOor) rA rB rC)

/-- Ash (R99). -/
def execAsh (rA rB rC : Reg) (s : State) : Result :=
  execute s (binaryOrFault (ashResult s.cfg.shiftOor) rA rB rC)

/-! ### Three-way compares -/

/-- Tcu (R101). -/
def execTcu (rA rB rC : Reg) (s : State) : Result :=
  execute s (binary compareUnsigned rA rB rC)

/-- Tcs (R102). -/
def execTcs (rA rB rC : Reg) (s : State) : Result :=
  execute s (binary compareSigned rA rB rC)

end Sys2Proof.Machine
end

