-- ==== Sys2Proof/Machine/Control.lean ====
section
/-! DEFINITION. Nop (40_sequencer.md R77). The core has no branch, jump or call instruction: control transfer is a write
of PC by any writing instruction (R78, R79), so no other meaning belongs here. -/

namespace Sys2Proof.Machine

/-- Nop: no effect; the step's own advance still happens (R77). -/
def execNop (s : State) : Result := execute s fun t => .ok t

end Sys2Proof.Machine
end

