-- ==== Sys2Proof/Machine/LoadStore.lean ====
section
/-! DEFINITION. The loads and stores Ldw, Stw, Ldb and Stb (43_load_store.md R130–R135). The address is a register's value
itself: rB for the loads, rA for the stores (R130). -/

namespace Sys2Proof.Machine

/-- Ldw (R131): x[rA] <- MemRead(x[rB], 4); on a fault rA is not written. -/
def execLdw (rA rB : Reg) (s : State) : Result :=
  execute s fun t =>
    match t.memReadWord .load (t.readReg rB) with
    | .ok v => .ok (t.writeReg rA v)
    | .error c => .error c

/-- Stw (R132): MemWrite(x[rA], 4, x[rB]); no register is written. -/
def execStw (rA rB : Reg) (s : State) : Result :=
  execute s fun t => t.memWriteWord (t.readReg rA) (t.readReg rB)

/-- Ldb's combine rule (R133): `old` is rA's value before the write, `b` the byte read. -/
def ldbCombine (mode : LdbMode) (old : Word) (b : Byte) : Word :=
  match mode with
  | .andMerge => old &&& zext8 b
  | .overwrite => zext8 b

/-- Ldb (R133). -/
def execLdb (rA rB : Reg) (s : State) : Result :=
  execute s fun t =>
    match t.memReadByte .load (t.readReg rB) with
    | .ok b => .ok (t.writeReg rA (ldbCombine t.cfg.ldbMode (t.readReg rA) b))
    | .error c => .error c

/-- Stb (R134): MemWrite(x[rA], 1, x[rB][7:0]); no register is written. -/
def execStb (rA rB : Reg) (s : State) : Result :=
  execute s fun t => t.memWriteByte (t.readReg rA) (byteOfWord (t.readReg rB) 0)

end Sys2Proof.Machine
end

