-- ==== Sys2Proof/Machine/Move.lean ====
section
/-! DEFINITION. The register moves Set and Mov (42_move.md R120, R121). -/

namespace Sys2Proof.Machine

/-- Set (R120): x[rA] <- imm. -/
def execSet (rA : Reg) (imm : Word) (s : State) : Result :=
  execute s (immediate rA imm)

/-- Mov (R121): x[rA] <- x[rB]. -/
def execMov (rA rB : Reg) (s : State) : Result :=
  execute s (unary (fun b => b) rA rB)

end Sys2Proof.Machine
end

