-- ==== Sys2Proof/Machine/Dispatch.lean ====
section
/-! DEFINITION. The dispatcher (40_sequencer.md R75): one execution rule per tag. `exec i s` is the advance and the
execution of `i` from the state `s` before the step, s.pc being the fetch address (log 7). -/

namespace Sys2Proof.Machine

/-- One arm per tag (R75). -/
def exec (i : Instr) (s : State) : Host.Outcome State Fault Refusal :=
  match i with
  | .nop => Sys2Proof.Machine.execNop s
  | .add rA rB rC => Sys2Proof.Machine.execAdd rA rB rC s
  | .sub rA rB rC => Sys2Proof.Machine.execSub rA rB rC s
  | .and rA rB rC => Sys2Proof.Machine.execAnd rA rB rC s
  | .orr rA rB rC => Sys2Proof.Machine.execOrr rA rB rC s
  | .xor rA rB rC => Sys2Proof.Machine.execXor rA rB rC s
  | .not rA rB => Sys2Proof.Machine.execNot rA rB s
  | .lsh rA rB rC => Sys2Proof.Machine.execLsh rA rB rC s
  | .ash rA rB rC => Sys2Proof.Machine.execAsh rA rB rC s
  | .tcu rA rB rC => Sys2Proof.Machine.execTcu rA rB rC s
  | .tcs rA rB rC => Sys2Proof.Machine.execTcs rA rB rC s
  | .set rA imm => Sys2Proof.Machine.execSet rA imm s
  | .mov rA rB => Sys2Proof.Machine.execMov rA rB s
  | .ldw rA rB => Sys2Proof.Machine.execLdw rA rB s
  | .stw rA rB => Sys2Proof.Machine.execStw rA rB s
  | .ldb rA rB => Sys2Proof.Machine.execLdb rA rB s
  | .stb rA rB => Sys2Proof.Machine.execStb rA rB s

end Sys2Proof.Machine
end

