-- ==== Sys2Proof/Machine/Sequencer.lean ====
section
/-! DEFINITION. The step sequencer (40_sequencer.md R70–R76, R87; fault priority 60_exceptions.md R154), for any value of
the parameter `decode` (R55), and what the `step` call returns to the host (R76, R155). -/

namespace Sys2Proof.Machine

/-- The fetch: the little-endian word at pc, through the same `read_word` as Ldw (R72). -/
def State.fetch (s : State) : Except FaultCause Word := s.memReadWord .fetch (s.readReg .pc)

/-- The instruction the step executes, or the fault of an earlier stage: fetch first, then decode (R71, R154). -/
def fetchDecode (decode : Decoder) (s : State) : Except FaultCause Instr :=
  match s.fetch with
  | .error c => .error c
  | .ok w =>
    match decode s.cfg.nreg w with
    | none => .error (.invalidEncoding w)
    | some d => .ok d.instr

/-- One step (R71): from Faulted there is none (R87); a fault of fetch or decode is taken before anything else
happens (R154); otherwise the decoded instruction executes. Only a `DecodedInstruction` reaches `exec`, so every
register operand exists (R53). -/
def stepWith (decode : Decoder) (s : State) : Result :=
  match s.run with
  | .faulted record => .fault (.stopped record)
  | .running =>
    match fetchDecode decode s with
    | .error c => .next (s.raise c)
    | .ok i => exec i s

/-- What a `step` call hands to the host (R76, R155): the decoded instruction of a completed step or the fault. -/
inductive Report where
  /-- the step completed and this is what it executed -/
  | executed (i : Instr)
  /-- the step faulted -/
  | fault (record : FaultRecord)
  /-- there was no step: the core is Faulted (R87) -/
  | noStep
deriving DecidableEq, Repr

/-- The report of the `step` call made in state `s`; it changes no state (R76; log 9). -/
def reportWith (decode : Decoder) (s : State) : Report :=
  match s.run with
  | .faulted _ => .noStep
  | .running =>
    match fetchDecode decode s with
    | .error c => .fault { cause := c, faultPc := s.pc }
    | .ok i =>
      match exec i s with
      | .next t =>
        match t.run with
        | .running => .executed i
        | .faulted record => .fault record
      | .fault _ => .noStep
      | .refused _ => .noStep

end Sys2Proof.Machine
end

