-- ==== Sys2Proof/Machine/Step.lean ====
section
/-! DEFINITION. One step of the core: the sequencer with the reference decoder (40_sequencer.md R71; 30_encoding.md R55), and
the host's placement of a word where the next step fetches. -/

namespace Sys2Proof.Machine

/-- One step (R71). -/
def step (s : State) : Host.Outcome State Fault Refusal := stepWith referenceDecoder s

/-- `s` with the low `nbits` bits of `w` (the bits above being 0) stored where the next step fetches (log 8). -/
def State.withFetchWord (s : State) (nbits w : Nat) : State := s.placeFetchWord (tableWord nbits w)

end Sys2Proof.Machine
end

