-- ==== Sys2Proof/Machine/HostView.lean ====
section
/-! DEFINITION. The host's side of 60_exceptions.md R166: image load (70_reset_and_hazards.md R183, R184), launch, reading the
registers in ordinal order (10_state.md R21; R164) and memory bytes, and the report of a step. -/

namespace Sys2Proof.Machine

/-- The image load (R184): bytes from address 0, those at MEMSIZE and above dropped. It writes no register (R183). -/
def State.load (s : State) (img : List Byte) : State :=
  { s with mem := Memory.load s.cfg.memSize s.mem 0 img }

/-- Construction, then the image load: the state before the first step of a run (R180). -/
def State.launch (c : Config) (img : List Byte) : State := (State.construct c).load img

/-- The ordinal of an identifier: 0 … NREG−1, and NREG for PC (R16). -/
def ordinal (nreg : Nat) : Reg → Nat
  | .r n => n
  | .pc => nreg

/-- The identifiers in ordinal order: R0, …, R(NREG−1), PC (R16, R21). -/
def identifiers (nreg : Nat) : List Reg := (List.range nreg).map .r ++ [.pc]

/-- What the host reads of the register file between steps (R21, R164). -/
def State.registersInOrder (s : State) : List (Reg × Word) :=
  (identifiers s.cfg.nreg).map fun r => (r, s.readReg r)

/-- What the host reads of memory between steps; outside 0 … MEMSIZE−1 there is no byte (R44, R166; D17). -/
def State.hostReadByte (s : State) (a : Nat) : Option Byte :=
  if a < s.cfg.memSize then some (s.mem.read a) else none

/-- The tag's spelling (R13). -/
def tagName : Instr → String
  | .nop => "Nop"
  | .add _ _ _ => "Add"
  | .sub _ _ _ => "Sub"
  | .and _ _ _ => "And"
  | .orr _ _ _ => "Orr"
  | .xor _ _ _ => "Xor"
  | .not _ _ => "Not"
  | .lsh _ _ _ => "Lsh"
  | .ash _ _ _ => "Ash"
  | .tcu _ _ _ => "Tcu"
  | .tcs _ _ _ => "Tcs"
  | .set _ _ => "Set"
  | .mov _ _ => "Mov"
  | .ldw _ _ => "Ldw"
  | .stw _ _ => "Stw"
  | .ldb _ _ => "Ldb"
  | .stb _ _ => "Stb"

/-- A register's spelling: R0 … R(NREG−1), PC (30_encoding.md R62). -/
def registerName : Reg → String
  | .r n => "R" ++ toString n
  | .pc => "PC"

/-- The constant an instruction carries, if its shape has one (R52). -/
def constantOf : Instr → Option Word
  | .set _ imm => some imm
  | .nop => none
  | .add _ _ _ => none
  | .sub _ _ _ => none
  | .and _ _ _ => none
  | .orr _ _ _ => none
  | .xor _ _ _ => none
  | .not _ _ => none
  | .lsh _ _ _ => none
  | .ash _ _ _ => none
  | .tcu _ _ _ => none
  | .tcs _ _ _ => none
  | .mov _ _ => none
  | .ldw _ _ => none
  | .stw _ _ => none
  | .ldb _ _ => none
  | .stb _ _ => none

/-- The written form of R12 and R62, `Tag(rA, rB, rC)` with Set's constant as a signed decimal (D16); none for a constant
that form cannot spell (log 10). -/
def writtenForm (i : Instr) : Option String :=
  if i.immediateFits then
    let operands := i.registers.map registerName ++ (constantOf i).toList.map fun imm => toString imm.toInt
    some (if operands.isEmpty then tagName i else tagName i ++ "(" ++ String.intercalate ", " operands ++ ")")
  else none

/-- The report of the `step` call made in state `s`, with the reference decoder (R76, R155). -/
def State.report (s : State) : Report := reportWith referenceDecoder s

end Sys2Proof.Machine
end

