-- ==== Sys2Proof/Safety.lean ====
section
/-! DEFINITION. The words claims are made in: what an operand reads as, frames, faults taken, encodings spelled as
arithmetic, the invariant of the core, and the end of a run (70_reset_and_hazards.md R186). Each is written from the rule it
cites, apart from the operations the meanings use, so that a claim compares two readings of the spec. -/

namespace Sys2Proof.Machine

/-! ### Operands and frames -/

/-- What operand `r` reads as while the instruction fetched at x[PC] = a executes: a general register's value, and
a+4 for PC (40_sequencer.md R74, 70_reset_and_hazards.md R188). -/
def State.operand (s : State) : Reg → Word
  | .r n => s.readReg (.r n)
  | .pc => s.pc + 4

/-- The word at `a`: mem[a] | (mem[a+1] << 8) | (mem[a+2] << 16) | (mem[a+3] << 24) (20_memory.md R35, R38). -/
def littleEndianWord (m : Memory) (a : Nat) : Word :=
  (m.read a).setWidth 32 ||| (m.read (a + 1)).setWidth 32 <<< 8 ||| (m.read (a + 2)).setWidth 32 <<< 16 |||
    (m.read (a + 3)).setWidth 32 <<< 24

/-- Everything but register `rA` is as the advance left it: every other register (PC among them, at a+4), every
byte of memory, the run state and the parameters. -/
structure LeavesAllBut (rA : Reg) (s t : State) : Prop where
  registers : ∀ q, q ≠ rA → t.readReg q = s.operand q
  memory : ∀ a, t.mem.read a = s.mem.read a
  run : t.run = s.run
  cfg : t.cfg = s.cfg

/-- Everything but memory is as the advance left it. -/
structure LeavesAllButMemory (s t : State) : Prop where
  registers : ∀ q, t.readReg q = s.operand q
  run : t.run = s.run
  cfg : t.cfg = s.cfg

/-- The instruction completes, writes `v` to `rA`, and leaves everything else. -/
def WritesResult (i : Instr) (s : State) (rA : Reg) (v : Word) : Prop :=
  ∃ t, exec i s = .next t ∧ t.readReg rA = v ∧ LeavesAllBut rA s t

/-- The instruction takes the fault `c`: nothing changes but the run state, which records the fault and the fetch
address (60_exceptions.md R152, R153). -/
def TakesFault (i : Instr) (s : State) (c : FaultCause) : Prop :=
  exec i s = .next { s with run := .faulted { cause := c, faultPc := s.pc } }

/-! ### Fetch -/

/-- The core is Running and the word at pc is in bounds and spells `i` in the reference encoding (R71, R72). -/
structure Fetches (s : State) (i : Instr) : Prop where
  running : s.run = .running
  inBounds : s.pc.toNat + 4 ≤ s.cfg.memSize
  decodes : decodeSRE s.cfg.nreg (littleEndianWord s.mem s.pc.toNat) = some i

/-! ### Encodings as arithmetic (30_encoding.md R56–R59, R61) -/

/-- `enc(R_k) = k ; enc(PC) = NREG`, as a word. -/
def registerCode (nreg : Nat) (r : Reg) : Word := BitVec.ofNat 32 (ordinal nreg r)

/-- Shape N: op in bits 7:0, the rest ignored. -/
def SpelledN (op : Word) (i : Instr) : Prop :=
  ∀ (nreg : Nat) (x : BitVec 24), decodeSRE nreg (op ||| x.setWidth 32 <<< 8) = some i

/-- Shape RRR: op | enc(a)<<8 | enc(b)<<16 | enc(c)<<24. -/
def SpelledRRR (op : Word) (mk : Reg → Reg → Reg → Instr) : Prop :=
  ∀ nreg a b c, nreg ≤ 255 → a.existsIn nreg = true → b.existsIn nreg = true → c.existsIn nreg = true →
    decodeSRE nreg (op ||| registerCode nreg a <<< 8 ||| registerCode nreg b <<< 16 |||
      registerCode nreg c <<< 24) = some (mk a b c)

/-- Shape RR: op | enc(a)<<8 | enc(b)<<16, bits 31:24 ignored. -/
def SpelledRR (op : Word) (mk : Reg → Reg → Instr) : Prop :=
  ∀ nreg a b (x : Byte), nreg ≤ 255 → a.existsIn nreg = true → b.existsIn nreg = true →
    decodeSRE nreg (op ||| registerCode nreg a <<< 8 ||| registerCode nreg b <<< 16 ||| x.setWidth 32 <<< 24) =
      some (mk a b)

/-- `sext_16` (00_scope.md R7): v − 2^16 modulo 2^32 if bit 15 is set, else v. -/
def signExtended16 (f : BitVec 16) : Word :=
  if f.getLsbD 15 then BitVec.ofInt 32 ((f.toNat : Int) - 2 ^ 16) else f.setWidth 32

/-- Shape RI: op | enc(a)<<8 | imm16<<16, the constant sign-extended. -/
def SpelledRI (op : Word) (mk : Reg → Word → Instr) : Prop :=
  ∀ nreg a (f : BitVec 16), nreg ≤ 255 → a.existsIn nreg = true →
    decodeSRE nreg (op ||| registerCode nreg a <<< 8 ||| f.setWidth 32 <<< 16) = some (mk a (signExtended16 f))

/-- The bits of a word that the shape of its opcode uses: the others are ignored (R59). -/
def usedBits (op : Nat) : Word :=
  if op = 0x00 then 0x000000FF
  else if op = 0x06 ∨ 0x0C ≤ op ∧ op ≤ 0x10 then 0x00FFFFFF
  else 0xFFFFFFFF

/-! ### The invariant -/

/-- A recorded fault is one the machine could raise in this very state: its kind's condition holds (R150), the
recorded word is the one at pc, and `fault_pc` is the pc the roll-back left (R152, R153). -/
structure GenuineFault (s : State) (record : FaultRecord) : Prop where
  faultPc : record.faultPc = s.pc
  outOfBounds : ∀ kind a size, record.cause = .outOfBounds kind a size →
    s.cfg.memSize < a.toNat + size.bytes ∧ (kind = .fetch → a = s.pc ∧ size = .word)
  invalidEncoding : ∀ w, record.cause = .invalidEncoding w →
    w = littleEndianWord s.mem s.pc.toNat ∧ decodeSRE s.cfg.nreg w = none
  shiftOutOfRange : ∀ tag c, record.cause = .shiftOutOfRange tag c →
    s.cfg.shiftOor = .fault ∧ (32 ≤ c.toInt ∨ c.toInt ≤ -32)

/-- The invariant: the parameters meet their constraints (R5), every identifier has an entry (R18), memory is in
canonical form and has nothing outside 0 … MEMSIZE−1 (R44), and a recorded fault is genuine (R152, R153). -/
structure State.Inv (s : State) : Prop where
  cfg : s.cfg.wf
  registers : s.regs.length = s.cfg.nreg
  memory : s.mem.wf
  memoryBelow : ∀ c ∈ s.mem, c.1 < s.cfg.memSize
  fault : ∀ record, s.run = .faulted record → GenuineFault s record

/-! ### The end of a run (R186) -/

/-- Faulted end: `run = Faulted(…)`, never a good end. -/
def EndsFaulted (s : State) : Prop := ∃ record, s.run = .faulted record

/-- Bounded end: `t` is the state after `n` completed steps from `s`, none of which faulted. -/
def CompletesSteps (n : Nat) (s t : State) : Prop := core.run n s = .next t ∧ t.run = .running

/-- A state between steps with `run = Running` and `pc = STOP_PC`. -/
def AtStop (stopPc : Word) (s : State) : Prop := s.run = .running ∧ s.pc = stopPc

/-- Stop-address end: the run from `s` ends after `n` steps in `t`, "the first state between steps with `run = Running`
and `pc = STOP_PC`". A later visit is not the end; the state before the
first step counts (DEDUCED, log 15). "The claim must require the self-loop as a premise":
`HoldsSelfLoop stopPc t`. -/
structure EndsAtStop (stopPc : Word) (n : Nat) (s t : State) : Prop where
  reached : core.run n s = .next t
  atStop : AtStop stopPc t
  first : ∀ k u, k < n → core.run k s = .next u → ¬ AtStop stopPc u

/-- The word at `stopPc` spells an instruction that jumps to its own address from `s`: it writes PC, completes, and
leaves pc at `stopPc`. -/
def HoldsSelfLoop (stopPc : Word) (s : State) : Prop :=
  s.pc = stopPc ∧ ∃ i t, Fetches s i ∧ i.destination = some .pc ∧ exec i s = .next t ∧ t.run = .running ∧
    t.pc = stopPc

end Sys2Proof.Machine
end

