-- ==== Sys2Proof/Certificates/Slice0/Obligations.lean ====
section
/-! DEFINITION. The statements for the provers. Each docstring names the rule it formalises; where a clause rests on a decision
the spec marks as its own (D<n>, or a passage marked derived) the docstring says so. -/

open Sys2Proof
open Sys2Proof.Machine

/-! ### Encoding -/

/-- A few words written out bit by bit from 30_encoding.md R56–R60 (SRE: the spec's own choice, D4–D6). Words from
95_test_vectors.md. -/
def Obligations.SreWordsDecode : Prop :=
  decodeSRE 32 0x00000000 = some .nop ∧
  decodeSRE 32 0x02010301 = some (.add (.r 3) (.r 1) (.r 2)) ∧
  decodeSRE 32 0x03020207 = some (.lsh (.r 2) (.r 2) (.r 3)) ∧
  decodeSRE 32 0xFF010306 = some (.not (.r 3) (.r 1)) ∧
  decodeSRE 32 0xFFE4060B = some (.set (.r 6) 0xFFFFFFE4) ∧
  decodeSRE 32 0x0001200C = some (.mov .pc (.r 1)) ∧
  decodeSRE 32 0x0002010E = some (.stw (.r 1) (.r 2)) ∧
  decodeSRE 32 0x00000011 = none ∧
  decodeSRE 32 0x00002101 = none

/-- "decodeSRE(encode(i)) = some i for every decoded instruction i whose immediate, if it has one, satisfies the condition
shown" (R61, marked derived; the SRE is the spec's own choice, D4). -/
def Obligations.DecodeOfEncodeIsIdentity : Prop :=
  ∀ (nreg : Nat) (i : Instr), nreg ≤ 255 → i.wellFormed nreg = true → decodeSRE nreg (encode nreg i) = some i

/-- The other direction: a decoded instruction is well formed, and its canonical word is the decoded word with the ignored
bits cleared (R58, R59, R61; D4, D5). -/
def Obligations.EncodeOfDecodeClearsIgnoredBits : Prop :=
  ∀ (nreg : Nat) (w : Word) (i : Instr), nreg ≤ 255 → decodeSRE nreg w = some i →
    i.wellFormed nreg = true ∧ encode nreg i = w &&& usedBits (w.toNat % 2 ^ 8)

/-- "Fields the shape does not use are ignored, and the word decodes the same whatever they hold" (R59; D5): two words that
agree on the used bits of one opcode decode alike. -/
def Obligations.IgnoredBitsDoNotMatter : Prop :=
  ∀ (nreg : Nat) (w v : Word),
    w &&& usedBits (w.toNat % 2 ^ 8) = v &&& usedBits (w.toNat % 2 ^ 8) → decodeSRE nreg w = decodeSRE nreg v

/-- `decodeSRE` returns `none` in exactly the two cases of R60 (D5, D7): an unassigned opcode, or a used register field greater
than NREG. -/
def Obligations.IllegalWordsExactly : Prop :=
  ∀ (nreg : Nat) (w : Word),
    decodeSRE nreg w = none ↔
      (let op := w.toNat % 2 ^ 8
       let a := w.toNat / 2 ^ 8 % 2 ^ 8
       let b := w.toNat / 2 ^ 16 % 2 ^ 8
       let c := w.toNat / 2 ^ 24
       0x11 ≤ op ∨
       (op ≠ 0x00 ∧ op ≤ 0x10 ∧ nreg < a) ∨
       (op ≠ 0x00 ∧ op ≠ 0x0B ∧ op ≤ 0x10 ∧ nreg < b) ∨
       ((1 ≤ op ∧ op ≤ 5 ∨ 7 ≤ op ∧ op ≤ 0x0A) ∧ nreg < c))

/-- Every operand of a decoded instruction is one of R0 … R(NREG−1) or PC, and every instruction over those identifiers, PC in
any position, is a decoded one (R53, by the model's type `DecodedInstruction`: DESIGN CHOICE, log 4); the reference decoder
gives what `decodeSRE` gives (the default of R55; SRE: D3, D4); and what a completed step of any decoder executes is the
instruction it fetched and decoded, which names identifiers only (R71). -/
def Obligations.DecodedOperandsAreIdentifiers : Prop :=
  (∀ (nreg : Nat) (d : DecodedInstruction nreg), ∀ r ∈ d.instr.registers, r ∈ identifiers nreg) ∧
  (∀ (nreg : Nat) (i : Instr), (∀ r ∈ i.registers, r ∈ identifiers nreg) →
    ∃ d : DecodedInstruction nreg, d.instr = i) ∧
  (∀ nreg : Nat, Reg.pc ∈ identifiers nreg) ∧
  (∀ (nreg : Nat) (w : Word), (referenceDecoder nreg w).map DecodedInstruction.instr = decodeSRE nreg w) ∧
  (∀ (decode : Decoder) (s t : State), stepWith decode s = .next t → t.run = .running →
    ∃ i, fetchDecode decode s = .ok i ∧ (∀ r ∈ i.registers, r ∈ identifiers s.cfg.nreg) ∧ exec i s = .next t)

/-! ### Reset and image load -/

/-- After construction every register of the enumeration, PC included, and every byte is 0 and `run = Running`, whatever the
parameters; State.reset is the reference configuration (R28, R5; `run` is the spec's decision D12). -/
def Obligations.ConstructionZeroesEverything : Prop :=
  (∀ (c : Config) (r : Reg), r.existsIn c.nreg = true → (State.construct c).readReg r = 0) ∧
  (∀ (c : Config) (a : Nat), (State.construct c).mem.read a = 0) ∧
  (∀ c : Config, (State.construct c).run = .running ∧ (State.construct c).cfg = c) ∧
  State.reset = State.construct { memSize := 640000, nreg := 32, shiftOor := .fault, ldbMode := .andMerge }

/-- The image load of R184 (its code; D19): byte i of the image below MEMSIZE, 0 elsewhere, and no register written (R183). -/
def Obligations.ImageFillsMemoryFromZero : Prop :=
  ∀ (c : Config) (img : List Byte),
    (∀ a, (State.launch c img).mem.read a = if a < c.memSize then img.getD a 0 else 0) ∧
    (∀ r, (State.launch c img).readReg r = (State.construct c).readReg r) ∧
    (State.launch c img).run = .running ∧ (State.launch c img).cfg = c

/-- The invariant holds at reset. -/
def Obligations.ResetMeetsInvariant : Prop := State.reset.Inv

/-- The invariant holds after construction and image load, for every parameter value R5 allows and every image. -/
def Obligations.LaunchMeetsInvariant : Prop :=
  ∀ (c : Config) (img : List Byte), c.wf → (State.launch c img).Inv

/-- Every step keeps the invariant: the parameters and the register file keep their sizes, memory stays canonical and inside
0 … MEMSIZE−1, and a fault that is recorded is one the machine could raise where it stands (R18, R44, R150, R152, R153). -/
def Obligations.StepKeepsInvariant : Prop :=
  ∀ s t : State, s.Inv → step s = .next t → t.Inv

/-! ### The sequencer -/

/-- A step from Running whose fetch is in bounds and decodes executes the decoded instruction (R71): `step` with the reference
decoder, and `stepWith` with any value of the parameter `decode` (R55). What `exec` adds is the advance (log 7). -/
def Obligations.StepRunsDecodedInstruction : Prop :=
  (∀ (s : State) (i : Instr), Fetches s i → step s = exec i s) ∧
  (∀ (decode : Decoder) (s : State) (d : DecodedInstruction s.cfg.nreg), s.run = .running →
    s.pc.toNat + 4 ≤ s.cfg.memSize → decode s.cfg.nreg (littleEndianWord s.mem s.pc.toNat) = some d →
    stepWith decode s = exec d.instr s)

/-- The model's own convention (log 8): a word placed by `withFetchWord` is the one the next step runs. -/
def Obligations.PlacedWordRunsNext : Prop :=
  ∀ (s : State) (w : Nat) (i : Instr), s.pc.toNat + 4 ≤ s.cfg.memSize →
    decodeSRE s.cfg.nreg (BitVec.ofNat 32 w) = some i →
    step (s.withFetchWord 32 w) = exec i (s.withFetchWord 32 w) ∧
      (∀ r, (s.withFetchWord 32 w).readReg r = s.readReg r) ∧
      (∀ a, a < s.pc.toNat ∨ s.pc.toNat + 4 ≤ a → (s.withFetchWord 32 w).mem.read a = s.mem.read a)

/-- An out-of-bounds fetch faults before anything else happens, whatever the decoder, and no address wraps (R33, R72; D8). -/
def Obligations.FetchOutsideMemoryFaults : Prop :=
  ∀ (decode : Decoder) (s : State), s.run = .running → s.cfg.memSize < s.pc.toNat + 4 →
    stepWith decode s =
      .next { s with run := .faulted { cause := .outOfBounds .fetch s.pc .word, faultPc := s.pc } }

/-- A fetched word without a meaning raises InvalidEncoding(w) (R55, R71; D7). -/
def Obligations.UndecodedWordFaults : Prop :=
  ∀ (decode : Decoder) (s : State), s.run = .running → s.pc.toNat + 4 ≤ s.cfg.memSize →
    decode s.cfg.nreg (littleEndianWord s.mem s.pc.toNat) = none →
    stepWith decode s =
      .next { s with
        run := .faulted { cause := .invalidEncoding (littleEndianWord s.mem s.pc.toNat), faultPc := s.pc } }

/-- A step answers a next state when the core is Running (R70, R71). From Faulted the spec says only that there is no
transition (R87, D12). That `step` then answers the fault `stopped` with the recorded fault is the model's own choice of
answer (DEDUCED, log 3), and no rule's. -/
def Obligations.StepsExactlyWhileRunning : Prop :=
  (∀ s : State, s.run = .running → ∃ t, step s = .next t) ∧
  (∀ (s : State) (record : FaultRecord), s.run = .faulted record → step s = .fault (.stopped record))

/-- A faulting step changes the run state and nothing else, and records the fetch address (R152, R153; C6, D12). -/
def Obligations.FaultRollsBackWholeStep : Prop :=
  ∀ (s t : State) (record : FaultRecord), step s = .next t → t.run = .faulted record →
    record.faultPc = s.pc ∧ t = { s with run := .faulted record }

/-- The order of R154 (D14): fetch, then decode, then the one fault the decoded instruction can raise: a load or a store of
its own width at its own address, or a shift by its own amount. -/
def Obligations.FaultPriorityOrder : Prop :=
  ∀ (s t : State) (record : FaultRecord), step s = .next t → t.run = .faulted record →
    (s.cfg.memSize < s.pc.toNat + 4 → record.cause = .outOfBounds .fetch s.pc .word) ∧
    (s.pc.toNat + 4 ≤ s.cfg.memSize → decodeSRE s.cfg.nreg (littleEndianWord s.mem s.pc.toNat) = none →
      record.cause = .invalidEncoding (littleEndianWord s.mem s.pc.toNat)) ∧
    (∀ i, Fetches s i →
      (∃ rA rB, i = .ldw rA rB ∧ record.cause = .outOfBounds .load (s.operand rB) .word) ∨
      (∃ rA rB, i = .ldb rA rB ∧ record.cause = .outOfBounds .load (s.operand rB) .byte) ∨
      (∃ rA rB, i = .stw rA rB ∧ record.cause = .outOfBounds .store (s.operand rA) .word) ∨
      (∃ rA rB, i = .stb rA rB ∧ record.cause = .outOfBounds .store (s.operand rA) .byte) ∨
      (∃ rA rB rC, i = .lsh rA rB rC ∧ record.cause = .shiftOutOfRange .lsh (s.operand rC)) ∨
      (∃ rA rB rC, i = .ash rA rB rC ∧ record.cause = .shiftOutOfRange .ash (s.operand rC)))

/-- R88: a completed step ends with pc = a+4 unless its instruction writes PC; then pc is the value it writes, and writing it is all
the instruction does. A faulted step leaves pc = a. -/
def Obligations.PcAfterStep : Prop :=
  (∀ (s t : State) (i : Instr), Fetches s i → step s = .next t → t.run = .running →
    i.destination ≠ some .pc → t.pc = s.pc + 4) ∧
  (∀ (s t : State) (i : Instr), Fetches s i → step s = .next t → t.run = .running →
    i.destination = some .pc → WritesResult i s .pc t.pc) ∧
  (∀ (s t : State) (record : FaultRecord), step s = .next t → t.run = .faulted record → t.pc = s.pc)

/-- What an instruction can touch (R74, R79, R90; the table of R21): at most its destination register besides PC, memory only
by Stw and Stb, and never both; the parameters never. -/
def Obligations.OneDestinationPerInstruction : Prop :=
  ∀ (i : Instr) (s t : State), exec i s = .next t →
    (∀ r, r ≠ .pc → i.destination ≠ some r → t.readReg r = s.readReg r) ∧
    ((∃ a, t.mem.read a ≠ s.mem.read a) →
      i.destination = none ∧ i ≠ .nop ∧ ∀ r, t.readReg r = s.operand r) ∧
    t.cfg = s.cfg

/-- "Mutated only by store instructions" (R49): a byte changes in a step only if the fetched instruction is a store and the byte is
one of those it stores to. -/
def Obligations.OnlyStoresChangeMemory : Prop :=
  ∀ (s t : State) (a : Nat), step s = .next t → t.mem.read a ≠ s.mem.read a →
    (∃ rA rB, Fetches s (.stw rA rB) ∧ (s.operand rA).toNat ≤ a ∧ a < (s.operand rA).toNat + 4) ∨
    (∃ rA rB, Fetches s (.stb rA rB) ∧ a = (s.operand rA).toNat)

/-- "None touches memory" (R90), and neither do the moves and Nop: with another memory, the same instruction does the same to
the registers and leaves that memory. -/
def Obligations.RegisterInstructionsIgnoreMemory : Prop :=
  ∀ (i : Instr) (s t : State) (m : Memory),
    (∀ rA rB, i ≠ .ldw rA rB ∧ i ≠ .ldb rA rB ∧ i ≠ .stw rA rB ∧ i ≠ .stb rA rB) →
    exec i s = .next t → t.mem = s.mem ∧ exec i { s with mem := m } = .next { t with mem := m }

/-- A store is seen by the very next fetch (R47, marked derived): a word stored at a+4 is the instruction of the next step. -/
def Obligations.StoreSeenByNextFetch : Prop :=
  ∀ (s : State) (rA rB : Reg) (j : Instr), Fetches s (.stw rA rB) → s.operand rA = s.pc + 4 →
    (s.operand rA).toNat + 4 ≤ s.cfg.memSize → decodeSRE s.cfg.nreg (s.operand rB) = some j →
    ∃ t, step s = .next t ∧ t.pc = s.pc + 4 ∧ step t = exec j t

/-- R186 (D18): from a state where a self-loop stands at pc, the step changes nothing, and so every number of steps. That
state is the stop-address end of its own run, at 0 steps: this clause rests on the model's reading that the state before
the first step counts as a state between steps (DEDUCED, log 15). -/
def Obligations.SelfLoopRepeatsForever : Prop :=
  ∀ (s : State) (stopPc : Word), HoldsSelfLoop stopPc s →
    (∀ n, CompletesSteps n s s ∧ AtStop stopPc s) ∧ EndsAtStop stopPc 0 s s

/-- R186 (D18): a run that visits STOP_PC while Running has one stop-address end, at its first visit and no later one; and where
that end holds a self-loop, every longer run is in the same state, so that what is observed there is final. -/
def Obligations.StopEndIsTheFirstVisit : Prop :=
  ∀ (s : State) (stopPc : Word),
    (∀ m u, core.run m s = .next u → AtStop stopPc u → ∃ n t, n ≤ m ∧ EndsAtStop stopPc n s t) ∧
    (∀ m n t u, EndsAtStop stopPc m s t → EndsAtStop stopPc n s u → m = n ∧ t = u) ∧
    (∀ n t, EndsAtStop stopPc n s t → HoldsSelfLoop stopPc t → ∀ k, CompletesSteps (n + k) s t)

/-- The two self-loops R186 names: `Set(PC, STOP_PC)` at STOP_PC, and `Add(PC, PC, Rm)` with x[Rm] = 0xFFFFFFFC. -/
def Obligations.NamedSelfLoops : Prop :=
  (∀ (s : State) (stopPc : Word), s.pc = stopPc → Fetches s (.set .pc stopPc) → HoldsSelfLoop stopPc s) ∧
  (∀ (s : State) (stopPc : Word) (n : Nat), s.pc = stopPc → Fetches s (.add .pc .pc (.r n)) →
    s.readReg (.r n) = 0xFFFFFFFC → HoldsSelfLoop stopPc s)

/-- R184's consequence, marked derived: from construction with an empty image every step executes a Nop, until pc reaches the
first multiple of 4 greater than MEMSIZE−4, where the fetch faults. -/
def Obligations.EmptyMemoryRunsNops : Prop :=
  ∀ (c : Config) (k : Nat), c.wf → 4 * k ≤ c.memSize →
    CompletesSteps k (State.construct c) { State.construct c with pc := BitVec.ofNat 32 (4 * k) } ∧
    (c.memSize < 4 * k + 4 → 4 * k < 2 ^ 32 →
      step { State.construct c with pc := BitVec.ofNat 32 (4 * k) } =
        .next { State.construct c with
          pc := BitVec.ofNat 32 (4 * k)
          run := .faulted { cause := .outOfBounds .fetch (BitVec.ofNat 32 (4 * k)) .word
                            faultPc := BitVec.ofNat 32 (4 * k) } })

/-- What the `step` call returns (R76, R155): the decoded instruction of a step that completes, the fault of one that faults. -/
def Obligations.ReportTellsWhatStepDid : Prop :=
  (∀ (s t : State) (i : Instr), Fetches s i → step s = .next t → t.run = .running → s.report = .executed i) ∧
  (∀ (s t : State) (record : FaultRecord), step s = .next t → t.run = .faulted record → s.report = .fault record)

/-- The host reads every register in ordinal order: R0, R1, …, R(NREG−1), PC (R21, R164; PC last is D2). -/
def Obligations.RegistersReadInOrdinalOrder : Prop :=
  ∀ s : State, s.registersInOrder.length = s.cfg.nreg + 1 ∧
    (∀ n, n < s.cfg.nreg → s.registersInOrder[n]? = some (.r n, s.readReg (.r n))) ∧
    s.registersInOrder[s.cfg.nreg]? = some (.pc, s.pc)

/-! ### Memory -/

/-- R39 (marked derived): the byte at w+j is bits 8j+7 … 8j of the word at w. -/
def Obligations.BytesOfAWordInMemory : Prop :=
  ∀ (m : Memory) (w j : Nat), j < 4 → (m.read (w + j)).toNat = (m.readWord w).toNat / 2 ^ (8 * j) % 2 ^ 8

/-! ### Instructions -/

/-- Nop (R77). The encoding clause is the rule's own Encoding line (SRE number: D4). -/
def Obligations.NopOnlyAdvances : Prop :=
  SpelledN 0x00 .nop ∧ ∀ s : State, exec .nop s = .next { s with pc := s.pc + 4 }

/-- Add (R91): the sum modulo 2^32, always completing. The encoding clause is the rule's own Encoding line (D4). -/
def Obligations.AddWritesWrappedSum : Prop :=
  SpelledRRR 0x01 .add ∧
  ∀ (s : State) (rA rB rC : Reg), s.Inv → (Instr.add rA rB rC).registersExist s.cfg.nreg = true →
    WritesResult (.add rA rB rC) s rA (BitVec.ofNat 32 ((s.operand rB).toNat + (s.operand rC).toNat))

/-- Sub (R92): rB minus rC modulo 2^32, always completing. The encoding clause is the rule's own Encoding line (D4). -/
def Obligations.SubWritesWrappedDifference : Prop :=
  SpelledRRR 0x02 .sub ∧
  ∀ (s : State) (rA rB rC : Reg), s.Inv → (Instr.sub rA rB rC).registersExist s.cfg.nreg = true →
    WritesResult (.sub rA rB rC) s rA
      (BitVec.ofInt 32 (((s.operand rB).toNat : Int) - ((s.operand rC).toNat : Int)))

/-- And, Orr, Xor and Not act bit by bit (R93–R96), always completing. The encoding clauses are the rules' own Encoding lines
(D4). -/
def Obligations.LogicActsBitByBit : Prop :=
  SpelledRRR 0x03 .and ∧ SpelledRRR 0x04 .orr ∧ SpelledRRR 0x05 .xor ∧ SpelledRR 0x06 .not ∧
  ∀ (s : State) (rA rB rC : Reg), s.Inv → (Instr.and rA rB rC).registersExist s.cfg.nreg = true →
    (∃ v, WritesResult (.and rA rB rC) s rA v ∧
      ∀ k, k < 32 → v.getLsbD k = ((s.operand rB).getLsbD k && (s.operand rC).getLsbD k)) ∧
    (∃ v, WritesResult (.orr rA rB rC) s rA v ∧
      ∀ k, k < 32 → v.getLsbD k = ((s.operand rB).getLsbD k || (s.operand rC).getLsbD k)) ∧
    (∃ v, WritesResult (.xor rA rB rC) s rA v ∧
      ∀ k, k < 32 → v.getLsbD k = ((s.operand rB).getLsbD k ^^ (s.operand rC).getLsbD k)) ∧
    (∃ v, WritesResult (.not rA rB) s rA v ∧
      ∀ k, k < 32 → v.getLsbD k = !(s.operand rB).getLsbD k)

/-- Lsh (R97, R98): left for an amount of 0 … 31, right with zero fill for −31 … −1, and the shift fault for a magnitude of 32 or
more under `fault`. The other settings stand in `OutOfRangeShiftTable`. The encoding clause is the rule's own (D4). -/
def Obligations.LshShiftsLogically : Prop :=
  SpelledRRR 0x07 .lsh ∧
  ∀ (s : State) (rA rB rC : Reg), s.Inv → (Instr.lsh rA rB rC).registersExist s.cfg.nreg = true →
    (0 ≤ (s.operand rC).toInt → (s.operand rC).toInt ≤ 31 →
      WritesResult (.lsh rA rB rC) s rA
        (BitVec.ofNat 32 ((s.operand rB).toNat * 2 ^ (s.operand rC).toInt.toNat))) ∧
    (-31 ≤ (s.operand rC).toInt → (s.operand rC).toInt < 0 →
      WritesResult (.lsh rA rB rC) s rA
        (BitVec.ofNat 32 ((s.operand rB).toNat / 2 ^ (-(s.operand rC).toInt).toNat))) ∧
    (32 ≤ (s.operand rC).toInt ∨ (s.operand rC).toInt ≤ -32 → s.cfg.shiftOor = .fault →
      TakesFault (.lsh rA rB rC) s (.shiftOutOfRange .lsh (s.operand rC)))

/-- Ash (R97, R99): `signed32(x[rB])` times 2^k wrapped (D10) for 0 … 31, divided by 2^k rounding toward −∞ for −31 … −1, and the
shift fault for a magnitude of 32 or more under `fault`. The encoding clause is the rule's own (D4). -/
def Obligations.AshShiftsArithmetically : Prop :=
  SpelledRRR 0x08 .ash ∧
  ∀ (s : State) (rA rB rC : Reg), s.Inv → (Instr.ash rA rB rC).registersExist s.cfg.nreg = true →
    (0 ≤ (s.operand rC).toInt → (s.operand rC).toInt ≤ 31 →
      WritesResult (.ash rA rB rC) s rA
        (BitVec.ofInt 32 ((s.operand rB).toInt * 2 ^ (s.operand rC).toInt.toNat))) ∧
    (-31 ≤ (s.operand rC).toInt → (s.operand rC).toInt < 0 →
      WritesResult (.ash rA rB rC) s rA
        (BitVec.ofInt 32 (Int.fdiv (s.operand rB).toInt (2 ^ (-(s.operand rC).toInt).toNat)))) ∧
    (32 ≤ (s.operand rC).toInt ∨ (s.operand rC).toInt ≤ -32 → s.cfg.shiftOor = .fault →
      TakesFault (.ash rA rB rC) s (.shiftOutOfRange .ash (s.operand rC)))

/-- R99's two equalities: Ash left has Lsh's bits (D10), and Ash right is the shift that copies bit 31. -/
def Obligations.AshLeftIsLshAshRightCopiesSign : Prop :=
  (∀ (s : State) (rA rB rC : Reg), 0 ≤ (s.operand rC).toInt → (s.operand rC).toInt ≤ 31 →
    exec (.ash rA rB rC) s = exec (.lsh rA rB rC) s) ∧
  (∀ (s : State) (rA rB rC : Reg), s.Inv → (Instr.ash rA rB rC).registersExist s.cfg.nreg = true →
    -31 ≤ (s.operand rC).toInt → (s.operand rC).toInt < 0 →
    ∃ v, WritesResult (.ash rA rB rC) s rA v ∧
      ∀ j, j < 32 → v.getLsbD j =
        (if j + (-(s.operand rC).toInt).toNat < 32
          then (s.operand rB).getLsbD (j + (-(s.operand rC).toInt).toNat)
          else (s.operand rB).getLsbD 31))

/-- The table of R100 (D9), every cell: a magnitude of 32 or more under each setting of SHIFT_OOR, both tags, both directions. The
amount −2^31 is one of the right shifts (R97). -/
def Obligations.OutOfRangeShiftTable : Prop :=
  ∀ (s : State) (rA rB rC : Reg), s.Inv → (Instr.lsh rA rB rC).registersExist s.cfg.nreg = true →
    (32 ≤ (s.operand rC).toInt ∨ (s.operand rC).toInt ≤ -32 →
      (s.cfg.shiftOor = .fault →
        TakesFault (.lsh rA rB rC) s (.shiftOutOfRange .lsh (s.operand rC)) ∧
        TakesFault (.ash rA rB rC) s (.shiftOutOfRange .ash (s.operand rC))) ∧
      (s.cfg.shiftOor = .saturate →
        WritesResult (.lsh rA rB rC) s rA 0 ∧
        WritesResult (.ash rA rB rC) s rA
          (if (s.operand rC).toInt < 0 ∧ (s.operand rB).toInt < 0 then 0xFFFFFFFF else 0))) ∧
    (32 ≤ (s.operand rC).toInt → s.cfg.shiftOor = .mask5 →
      WritesResult (.lsh rA rB rC) s rA
        (BitVec.ofNat 32 ((s.operand rB).toNat * 2 ^ ((s.operand rC).toInt.toNat % 32))) ∧
      WritesResult (.ash rA rB rC) s rA
        (BitVec.ofNat 32 ((s.operand rB).toNat * 2 ^ ((s.operand rC).toInt.toNat % 32)))) ∧
    ((s.operand rC).toInt ≤ -32 → s.cfg.shiftOor = .mask5 →
      WritesResult (.lsh rA rB rC) s rA
        (BitVec.ofNat 32 ((s.operand rB).toNat / 2 ^ ((-(s.operand rC).toInt).toNat % 32))) ∧
      WritesResult (.ash rA rB rC) s rA
        (BitVec.ofInt 32 (Int.fdiv (s.operand rB).toInt (2 ^ ((-(s.operand rC).toInt).toNat % 32)))))

/-- Tcu (R101), always completing. The encoding clause is the rule's own Encoding line (D4). -/
def Obligations.TcuComparesUnsigned : Prop :=
  SpelledRRR 0x09 .tcu ∧
  ∀ (s : State) (rA rB rC : Reg), s.Inv → (Instr.tcu rA rB rC).registersExist s.cfg.nreg = true →
    ∃ v, WritesResult (.tcu rA rB rC) s rA v ∧
      ((s.operand rC).toNat < (s.operand rB).toNat → v = 0x00000001) ∧
      ((s.operand rB).toNat < (s.operand rC).toNat → v = 0xFFFFFFFF) ∧
      (s.operand rB = s.operand rC → v = 0x00000000)

/-- Tcs (R102), always completing. The encoding clause is the rule's own Encoding line (D4). -/
def Obligations.TcsComparesSigned : Prop :=
  SpelledRRR 0x0A .tcs ∧
  ∀ (s : State) (rA rB rC : Reg), s.Inv → (Instr.tcs rA rB rC).registersExist s.cfg.nreg = true →
    ∃ v, WritesResult (.tcs rA rB rC) s rA v ∧
      ((s.operand rC).toInt < (s.operand rB).toInt → v = 0x00000001) ∧
      ((s.operand rB).toInt < (s.operand rC).toInt → v = 0xFFFFFFFF) ∧
      (s.operand rB = s.operand rC → v = 0x00000000)

/-- Set (R120): the constant itself, any 32-bit constant of a decoded instruction, always completing. The encoding clause is
the rule's own Encoding line (D4, D6). -/
def Obligations.SetWritesConstant : Prop :=
  SpelledRI 0x0B .set ∧
  ∀ (s : State) (rA : Reg) (imm : Word), s.Inv → (Instr.set rA imm).registersExist s.cfg.nreg = true →
    WritesResult (.set rA imm) s rA imm

/-- Mov (R121), always completing. The encoding clause is the rule's own Encoding line (D4). -/
def Obligations.MovCopiesRegister : Prop :=
  SpelledRR 0x0C .mov ∧
  ∀ (s : State) (rA rB : Reg), s.Inv → (Instr.mov rA rB).registersExist s.cfg.nreg = true →
    WritesResult (.mov rA rB) s rA (s.operand rB)

/-- R82 (marked derived): `Add(PC, PC, Rt)` at a jumps to unsigned32(a + 4 + signed32(x[Rt])). -/
def Obligations.AddToPcJumpsRelative : Prop :=
  ∀ (s : State) (n : Nat), ∃ t, exec (.add .pc .pc (.r n)) s = .next t ∧
    t.pc = BitVec.ofInt 32 ((s.pc.toNat : Int) + 4 + (s.readReg (.r n)).toInt) ∧
    (∀ k, t.readReg (.r k) = s.readReg (.r k)) ∧ t.mem = s.mem ∧ t.run = s.run ∧ t.cfg = s.cfg

/-- Ldw (R131): the little-endian word at x[rB] in bounds, OutOfBounds(load, x[rB], 4) otherwise. The encoding clause is the rule's
own Encoding line (D4). -/
def Obligations.LdwLoadsWord : Prop :=
  SpelledRR 0x0D .ldw ∧
  ∀ (s : State) (rA rB : Reg), s.Inv → (Instr.ldw rA rB).registersExist s.cfg.nreg = true →
    ((s.operand rB).toNat + 4 ≤ s.cfg.memSize →
      WritesResult (.ldw rA rB) s rA (littleEndianWord s.mem (s.operand rB).toNat)) ∧
    (s.cfg.memSize < (s.operand rB).toNat + 4 →
      TakesFault (.ldw rA rB) s (.outOfBounds .load (s.operand rB) .word))

/-- Stw (R132): the four bytes of x[rB], least significant first, from x[rA] up, every other byte and every register left alone;
OutOfBounds(store, x[rA], 4) otherwise, and then nothing is written. The last clause is the rule's round trip: an Ldw from the
same address returns the stored word, aligned or not. The encoding clause is the rule's own (D4). -/
def Obligations.StwStoresWord : Prop :=
  SpelledRR 0x0E .stw ∧
  ∀ (s : State) (rA rB : Reg), s.Inv → (Instr.stw rA rB).registersExist s.cfg.nreg = true →
    ((s.operand rA).toNat + 4 ≤ s.cfg.memSize →
      ∃ t, exec (.stw rA rB) s = .next t ∧ LeavesAllButMemory s t ∧
        (∀ j, j < 4 → (t.mem.read ((s.operand rA).toNat + j)).toNat =
          (s.operand rB).toNat / 2 ^ (8 * j) % 2 ^ 8) ∧
        (∀ a, a < (s.operand rA).toNat ∨ (s.operand rA).toNat + 4 ≤ a → t.mem.read a = s.mem.read a)) ∧
    (s.cfg.memSize < (s.operand rA).toNat + 4 →
      TakesFault (.stw rA rB) s (.outOfBounds .store (s.operand rA) .word)) ∧
    (∀ (t : State) (rD rE : Reg), (s.operand rA).toNat + 4 ≤ s.cfg.memSize → exec (.stw rA rB) s = .next t →
      rD.existsIn s.cfg.nreg = true → t.operand rE = s.operand rA →
      WritesResult (.ldw rD rE) t rD (s.operand rB))

/-- Ldb (R133) under both settings of LDB_MODE; OutOfBounds(load, x[rB], 1) otherwise. The encoding clause is the rule's own
(D4). -/
def Obligations.LdbCombinesByte : Prop :=
  SpelledRR 0x0F .ldb ∧
  ∀ (s : State) (rA rB : Reg), s.Inv → (Instr.ldb rA rB).registersExist s.cfg.nreg = true →
    ((s.operand rB).toNat + 1 ≤ s.cfg.memSize → s.cfg.ldbMode = .andMerge →
      WritesResult (.ldb rA rB) s rA
        (s.operand rA &&& BitVec.ofNat 32 (s.mem.read (s.operand rB).toNat).toNat)) ∧
    ((s.operand rB).toNat + 1 ≤ s.cfg.memSize → s.cfg.ldbMode = .overwrite →
      WritesResult (.ldb rA rB) s rA (BitVec.ofNat 32 (s.mem.read (s.operand rB).toNat).toNat)) ∧
    (s.cfg.memSize < (s.operand rB).toNat + 1 →
      TakesFault (.ldb rA rB) s (.outOfBounds .load (s.operand rB) .byte))

/-- Stb (R134): bits 7:0 of x[rB] at x[rA], every other byte and every register left alone; OutOfBounds(store, x[rA], 1)
otherwise. The encoding clause is the rule's own (D4). -/
def Obligations.StbStoresLowByte : Prop :=
  SpelledRR 0x10 .stb ∧
  ∀ (s : State) (rA rB : Reg), s.Inv → (Instr.stb rA rB).registersExist s.cfg.nreg = true →
    ((s.operand rA).toNat + 1 ≤ s.cfg.memSize →
      ∃ t, exec (.stb rA rB) s = .next t ∧ LeavesAllButMemory s t ∧
        (t.mem.read (s.operand rA).toNat).toNat = (s.operand rB).toNat % 2 ^ 8 ∧
        (∀ a, a ≠ (s.operand rA).toNat → t.mem.read a = s.mem.read a)) ∧
    (s.cfg.memSize < (s.operand rA).toNat + 1 →
      TakesFault (.stb rA rB) s (.outOfBounds .store (s.operand rA) .byte))
end

