-- ==== Sys2Proof/Laws/Decode.lean ====
section
/-! SUPPORT. The fields of a packed word, register codes, and decoding by opcode. -/

namespace Sys2Proof

/-! ### Words as numbers -/

/-- A word packed from four bytes, as a number. -/
theorem toNat_pack (c b a o : Byte) :
    (c ++ b ++ a ++ o : Word).toNat = c.toNat * 2 ^ 24 + b.toNat * 2 ^ 16 + a.toNat * 2 ^ 8 + o.toNat := by
  simp only [BitVec.toNat_append]
  rw [← Nat.shiftLeft_add_eq_or_of_lt o.isLt, ← Nat.shiftLeft_add_eq_or_of_lt a.isLt,
    ← Nat.shiftLeft_add_eq_or_of_lt b.isLt]
  simp only [Nat.shiftLeft_eq]
  omega

/-- A word packed from a 16-bit constant and two bytes, as a number. -/
theorem toNat_packImm (f : BitVec 16) (a o : Byte) :
    (f ++ a ++ o : Word).toNat = f.toNat * 2 ^ 16 + a.toNat * 2 ^ 8 + o.toNat := by
  simp only [BitVec.toNat_append]
  rw [← Nat.shiftLeft_add_eq_or_of_lt o.isLt, ← Nat.shiftLeft_add_eq_or_of_lt a.isLt]
  simp only [Nat.shiftLeft_eq]
  omega

/-- A word packed from 24 ignored bits and an opcode, as a number. -/
theorem toNat_packN (x : BitVec 24) (o : Byte) : (x ++ o : Word).toNat = x.toNat * 2 ^ 8 + o.toNat := by
  simp only [BitVec.toNat_append]
  rw [← Nat.shiftLeft_add_eq_or_of_lt o.isLt, Nat.shiftLeft_eq]

/-! ### Fields as numbers -/

theorem toNat_opField (w : Word) : (opField w).toNat = w.toNat % 2 ^ 8 := by
  simp [opField, BitVec.extractLsb'_toNat]

theorem toNat_fieldA (w : Word) : (fieldA w).toNat = w.toNat / 2 ^ 8 % 2 ^ 8 := by
  simp [fieldA, BitVec.extractLsb'_toNat, Nat.shiftRight_eq_div_pow]

theorem toNat_fieldB (w : Word) : (fieldB w).toNat = w.toNat / 2 ^ 16 % 2 ^ 8 := by
  simp [fieldB, BitVec.extractLsb'_toNat, Nat.shiftRight_eq_div_pow]

theorem toNat_fieldC (w : Word) : (fieldC w).toNat = w.toNat / 2 ^ 24 % 2 ^ 8 := by
  simp [fieldC, BitVec.extractLsb'_toNat, Nat.shiftRight_eq_div_pow]

theorem toNat_fieldImm (w : Word) : (fieldImm w).toNat = w.toNat / 2 ^ 16 % 2 ^ 16 := by
  simp [fieldImm, BitVec.extractLsb'_toNat, Nat.shiftRight_eq_div_pow]

/-! ### Fields of a packed word -/

@[simp] theorem opField_pack (c b a o : Byte) : opField (c ++ b ++ a ++ o) = o := by
  apply BitVec.eq_of_toNat_eq
  rw [toNat_opField, toNat_pack]
  have := o.isLt
  omega

@[simp] theorem fieldA_pack (c b a o : Byte) : fieldA (c ++ b ++ a ++ o) = a := by
  apply BitVec.eq_of_toNat_eq
  rw [toNat_fieldA, toNat_pack]
  have := o.isLt
  have := a.isLt
  omega

@[simp] theorem fieldB_pack (c b a o : Byte) : fieldB (c ++ b ++ a ++ o) = b := by
  apply BitVec.eq_of_toNat_eq
  rw [toNat_fieldB, toNat_pack]
  have := o.isLt
  have := a.isLt
  have := b.isLt
  omega

@[simp] theorem fieldC_pack (c b a o : Byte) : fieldC (c ++ b ++ a ++ o) = c := by
  apply BitVec.eq_of_toNat_eq
  rw [toNat_fieldC, toNat_pack]
  have := o.isLt
  have := a.isLt
  have := b.isLt
  have := c.isLt
  omega

@[simp] theorem opField_packImm (f : BitVec 16) (a o : Byte) : opField (f ++ a ++ o) = o := by
  apply BitVec.eq_of_toNat_eq
  rw [toNat_opField, toNat_packImm]
  have := o.isLt
  omega

@[simp] theorem fieldA_packImm (f : BitVec 16) (a o : Byte) : fieldA (f ++ a ++ o) = a := by
  apply BitVec.eq_of_toNat_eq
  rw [toNat_fieldA, toNat_packImm]
  have := o.isLt
  have := a.isLt
  omega

@[simp] theorem fieldImm_packImm (f : BitVec 16) (a o : Byte) : fieldImm (f ++ a ++ o) = f := by
  apply BitVec.eq_of_toNat_eq
  rw [toNat_fieldImm, toNat_packImm]
  have := o.isLt
  have := a.isLt
  have := f.isLt
  omega

@[simp] theorem opField_packN (x : BitVec 24) (o : Byte) : opField (x ++ o) = o := by
  apply BitVec.eq_of_toNat_eq
  rw [toNat_opField, toNat_packN]
  have := o.isLt
  omega

/-! ### Register codes -/

/-- The code of an existing register decodes to it: NREG ≤ 255 is what keeps the codes apart (R58, R61). -/
theorem regOfField_code {nreg : Nat} (hn : nreg ≤ 255) {r : Reg} (hr : r.existsIn nreg = true) :
    regOfField nreg (r.code nreg) = .ok r := by
  cases r with
  | r n =>
    have h : n < nreg := by simpa [Reg.existsIn] using hr
    have ht : (BitVec.ofNat 8 n).toNat = n := by rw [BitVec.toNat_ofNat]; omega
    rw [Reg.code, regOfField, ht, if_pos h]
  | pc =>
    have ht : (BitVec.ofNat 8 nreg).toNat = nreg := by rw [BitVec.toNat_ofNat]; omega
    rw [Reg.code, regOfField, ht, if_neg (Nat.lt_irrefl _), if_pos rfl]

/-- What a register field decodes to, and when it does not. -/
theorem regOfField_cases (nreg : Nat) (f : Byte) :
    (∃ r, regOfField nreg f = .ok r ∧ r.existsIn nreg = true ∧ f.toNat ≤ nreg) ∨
      (regOfField nreg f = .error (.noSuchRegister f) ∧ nreg < f.toNat) := by
  unfold regOfField
  split
  · rename_i h; exact .inl ⟨_, rfl, by simp [Reg.existsIn, h], by omega⟩
  · split
    · exact .inl ⟨_, rfl, rfl, by omega⟩
    · exact .inr ⟨rfl, by omega⟩

/-- A register that a field decodes to has that field as its code. -/
theorem code_of_regOfField {nreg : Nat} {f : Byte} {r : Reg} (h : regOfField nreg f = .ok r) :
    r.code nreg = f := by
  unfold regOfField at h
  split at h
  · injection h with h; subst h; simp [Reg.code]
  · split at h
    · rename_i he; injection h with h; subst h; simp [Reg.code, ← he]
    · exact absurd h (by simp)

/-! ### Decoding a packed word -/

theorem decodeRRR_pack {nreg : Nat} (hn : nreg ≤ 255) {a b c : Reg} (ha : a.existsIn nreg = true)
    (hb : b.existsIn nreg = true) (hc : c.existsIn nreg = true) (mk : Reg → Reg → Reg → Instr) (o : Byte) :
    decodeRRR nreg mk (encodeRRR nreg o a b c) = .ok (mk a b c) := by
  simp only [decodeRRR, encodeRRR, fieldA_pack, fieldB_pack, fieldC_pack, regOfField_code hn ha,
    regOfField_code hn hb, regOfField_code hn hc]
  rfl

theorem decodeRR_pack {nreg : Nat} (hn : nreg ≤ 255) {a b : Reg} (ha : a.existsIn nreg = true)
    (hb : b.existsIn nreg = true) (mk : Reg → Reg → Instr) (x o : Byte) :
    decodeRR nreg mk (x ++ b.code nreg ++ a.code nreg ++ o) = .ok (mk a b) := by
  simp only [decodeRR, fieldA_pack, fieldB_pack, regOfField_code hn ha, regOfField_code hn hb]
  rfl

theorem decodeRI_pack {nreg : Nat} (hn : nreg ≤ 255) {a : Reg} (ha : a.existsIn nreg = true)
    (mk : Reg → Word → Instr) (f : BitVec 16) (o : Byte) :
    decodeRI nreg mk (f ++ a.code nreg ++ o) = .ok (mk a (f.signExtend 32)) := by
  simp only [decodeRI, fieldA_packImm, fieldImm_packImm, regOfField_code hn ha]
  rfl

/-! ### What a decoded word names (R53) -/

/-- A register field that decodes names a register that exists. -/
theorem existsIn_of_regOfField {nreg : Nat} {f : Byte} {r : Reg} (h : regOfField nreg f = .ok r) :
    r.existsIn nreg = true := by
  rcases regOfField_cases nreg f with ⟨q, hq, he, _⟩ | ⟨hq, _⟩
  · rw [h] at hq; injection hq with hq; exact hq ▸ he
  · rw [h] at hq; exact absurd hq (by simp)

theorem decodeRRR_ok {nreg : Nat} {mk : Reg → Reg → Reg → Instr} {w : Word} {i : Instr}
    (h : decodeRRR nreg mk w = .ok i) :
    ∃ a b c, i = mk a b c ∧ a.existsIn nreg = true ∧ b.existsIn nreg = true ∧ c.existsIn nreg = true := by
  unfold decodeRRR at h
  cases ha : regOfField nreg (fieldA w) with
  | error e => rw [ha] at h; exact absurd h (by simp [bind, Except.bind])
  | ok a =>
    cases hb : regOfField nreg (fieldB w) with
    | error e => rw [ha, hb] at h; exact absurd h (by simp [bind, Except.bind])
    | ok b =>
      cases hc : regOfField nreg (fieldC w) with
      | error e => rw [ha, hb, hc] at h; exact absurd h (by simp [bind, Except.bind])
      | ok c =>
        rw [ha, hb, hc] at h
        injection h with h
        exact ⟨a, b, c, h.symm, existsIn_of_regOfField ha, existsIn_of_regOfField hb, existsIn_of_regOfField hc⟩

theorem decodeRR_ok {nreg : Nat} {mk : Reg → Reg → Instr} {w : Word} {i : Instr} (h : decodeRR nreg mk w = .ok i) :
    ∃ a b, i = mk a b ∧ a.existsIn nreg = true ∧ b.existsIn nreg = true := by
  unfold decodeRR at h
  cases ha : regOfField nreg (fieldA w) with
  | error e => rw [ha] at h; exact absurd h (by simp [bind, Except.bind])
  | ok a =>
    cases hb : regOfField nreg (fieldB w) with
    | error e => rw [ha, hb] at h; exact absurd h (by simp [bind, Except.bind])
    | ok b =>
      rw [ha, hb] at h
      injection h with h
      exact ⟨a, b, h.symm, existsIn_of_regOfField ha, existsIn_of_regOfField hb⟩

theorem decodeRI_ok {nreg : Nat} {mk : Reg → Word → Instr} {w : Word} {i : Instr} (h : decodeRI nreg mk w = .ok i) :
    ∃ a imm, i = mk a imm ∧ a.existsIn nreg = true := by
  unfold decodeRI at h
  cases ha : regOfField nreg (fieldA w) with
  | error e => rw [ha] at h; exact absurd h (by simp [bind, Except.bind])
  | ok a =>
    rw [ha] at h
    injection h with h
    exact ⟨a, _, h.symm, existsIn_of_regOfField ha⟩

/-- Every register operand `decodeNamed` gives exists. -/
theorem registersExist_of_decodeNamed {nreg : Nat} {w : Word} {i : Instr} (h : decodeNamed nreg w = .ok i) :
    i.registersExist nreg = true := by
  unfold decodeNamed at h
  split at h
  all_goals first
    | (obtain ⟨a, b, c, rfl, ha, hb, hc⟩ := decodeRRR_ok h
       simp [Instr.registersExist, Instr.registers, ha, hb, hc])
    | (obtain ⟨a, b, rfl, ha, hb⟩ := decodeRR_ok h
       simp [Instr.registersExist, Instr.registers, ha, hb])
    | (obtain ⟨a, imm, rfl, ha⟩ := decodeRI_ok h
       simp [Instr.registersExist, Instr.registers, ha])
    | (cases h <;> rfl)

/-- Every register operand `decodeSRE` gives exists. -/
theorem registersExist_of_decodeSRE {nreg : Nat} {w : Word} {i : Instr} (h : decodeSRE nreg w = some i) :
    i.registersExist nreg = true := by
  unfold decodeSRE at h
  cases hn : decodeNamed nreg w with
  | error e => rw [hn] at h; exact absurd h (by simp [Except.toOption])
  | ok j =>
    rw [hn] at h
    injection h with h
    exact h ▸ registersExist_of_decodeNamed hn

/-! ### The reference decoder -/

theorem DecodedInstruction.ofInstr_of_registersExist {nreg : Nat} {i : Instr} (h : i.registersExist nreg = true) :
    DecodedInstruction.ofInstr nreg i = some ⟨i, h⟩ := dif_pos h

theorem referenceDecoder_of_some {nreg : Nat} {w : Word} {i : Instr} (h : decodeSRE nreg w = some i) :
    referenceDecoder nreg w = some ⟨i, registersExist_of_decodeSRE h⟩ := by
  rw [referenceDecoder, h, Option.bind_some,
    DecodedInstruction.ofInstr_of_registersExist (registersExist_of_decodeSRE h)]

theorem referenceDecoder_of_none {nreg : Nat} {w : Word} (h : decodeSRE nreg w = none) :
    referenceDecoder nreg w = none := by
  rw [referenceDecoder, h, Option.bind_none]

/-- `referenceDecoder` gives what `decodeSRE` gives, on every word. -/
theorem map_instr_referenceDecoder (nreg : Nat) (w : Word) :
    (referenceDecoder nreg w).map DecodedInstruction.instr = decodeSRE nreg w := by
  cases h : decodeSRE nreg w with
  | none => rw [referenceDecoder_of_none h, Option.map_none]
  | some i => rw [referenceDecoder_of_some h, Option.map_some]

end Sys2Proof
end

