-- ==== Sys2Proof/Laws/Memory.lean ====
section
/-! SUPPORT. The laws of memory: read after write, the other addresses, the canonical form kept by every memory operation, and
equal reads give equal memories. -/

namespace Sys2Proof.Machine

@[simp] theorem Memory.read_nil (a : Nat) : Memory.read [] a = Memory.unlisted := rfl

theorem Memory.read_cons (k : Nat) (b : Byte) (m : Memory) (a : Nat) :
    Memory.read ((k, b) :: m) a = if k = a then b else Memory.read m a := rfl

/-- An address with no entry reads as `unlisted`. -/
theorem Memory.read_of_forall_ne {m : Memory} {a : Nat} (h : ∀ c ∈ m, c.1 ≠ a) :
    m.read a = Memory.unlisted := by
  induction m with
  | nil => rfl
  | cons c m ih =>
    obtain ⟨k, b⟩ := c
    have hk : k ≠ a := h (k, b) (by simp)
    rw [Memory.read_cons, if_neg hk]
    exact ih fun c hc => h c (by simp [hc])

theorem Memory.read_eraseCell_self (m : Memory) (a : Nat) : (m.eraseCell a).read a = Memory.unlisted :=
  Memory.read_of_forall_ne fun c hc => by
    simp only [Memory.eraseCell, List.mem_filter, bne_iff_ne] at hc
    exact hc.2

theorem Memory.read_eraseCell_of_ne {a x : Nat} (h : x ≠ a) (m : Memory) : (m.eraseCell a).read x = m.read x := by
  induction m with
  | nil => rfl
  | cons c m ih =>
    obtain ⟨k, b⟩ := c
    by_cases hk : k = a
    · have : Memory.eraseCell ((k, b) :: m) a = Memory.eraseCell m a := by simp [Memory.eraseCell, hk]
      rw [this, ih, Memory.read_cons, if_neg (by omega)]
    · have : Memory.eraseCell ((k, b) :: m) a = (k, b) :: Memory.eraseCell m a := by simp [Memory.eraseCell, hk]
      rw [this, Memory.read_cons, Memory.read_cons, ih]

theorem Memory.read_insertCell_of_ne {a x : Nat} (h : x ≠ a) (m : Memory) (v : Byte) :
    (m.insertCell a v).read x = m.read x := by
  induction m with
  | nil => rw [Memory.insertCell, Memory.read_cons, if_neg (by omega)]
  | cons c m ih =>
    obtain ⟨k, b⟩ := c
    rw [Memory.insertCell]
    split
    · rw [Memory.read_cons, if_neg (by omega)]
    · rw [Memory.read_cons, Memory.read_cons, ih]

theorem Memory.read_insertCell_self {a : Nat} {m : Memory} (h : ∀ c ∈ m, c.1 ≠ a) (v : Byte) :
    (m.insertCell a v).read a = v := by
  induction m with
  | nil => rw [Memory.insertCell, Memory.read_cons, if_pos rfl]
  | cons c m ih =>
    obtain ⟨k, b⟩ := c
    have hk : k ≠ a := h (k, b) (by simp)
    rw [Memory.insertCell]
    split
    · rw [Memory.read_cons, if_pos rfl]
    · rw [Memory.read_cons, if_neg hk]
      exact ih fun c hc => h c (by simp [hc])

theorem Memory.eraseCell_no_entry (m : Memory) (a : Nat) : ∀ c ∈ m.eraseCell a, c.1 ≠ a := by
  intro c hc
  simp only [Memory.eraseCell, List.mem_filter, bne_iff_ne] at hc
  exact hc.2

/-- A read after a write to the same address gives the value written. -/
@[simp] theorem Memory.read_write_self (m : Memory) (a : Nat) (v : Byte) : (m.write a v).read a = v := by
  rw [Memory.write]
  split
  · rename_i hv; rw [Memory.read_eraseCell_self, hv]
  · exact Memory.read_insertCell_self (Memory.eraseCell_no_entry m a) v

/-- A write leaves every other address alone. -/
theorem Memory.read_write_of_ne {a x : Nat} (h : x ≠ a) (m : Memory) (v : Byte) :
    (m.write a v).read x = m.read x := by
  rw [Memory.write]
  split
  · exact Memory.read_eraseCell_of_ne h m
  · rw [Memory.read_insertCell_of_ne h, Memory.read_eraseCell_of_ne h]

/-- Both cases of a read after a write. -/
theorem Memory.read_write (m : Memory) (a x : Nat) (v : Byte) :
    (m.write a v).read x = if x = a then v else m.read x := by
  split
  · rename_i h; rw [h, Memory.read_write_self]
  · rename_i h; exact Memory.read_write_of_ne h m v

/-! ### The canonical form -/

theorem Memory.mem_insertCell {m : Memory} {a : Nat} {v : Byte} {c : Host.Cell} :
    c ∈ m.insertCell a v ↔ c = (a, v) ∨ c ∈ m := by
  induction m with
  | nil => simp [Memory.insertCell]
  | cons d m ih =>
    obtain ⟨k, b⟩ := d
    rw [Memory.insertCell]
    split
    · simp
    · simp only [List.mem_cons, ih]; tauto

theorem Memory.pairwise_insertCell {m : Memory} {a : Nat} {v : Byte} (h : ∀ c ∈ m, c.1 ≠ a)
    (hm : m.Pairwise (fun p q => p.1 < q.1)) : (m.insertCell a v).Pairwise (fun p q => p.1 < q.1) := by
  induction m with
  | nil => simp [Memory.insertCell]
  | cons d m ih =>
    obtain ⟨k, b⟩ := d
    have hk : k ≠ a := h (k, b) (by simp)
    have hm' := List.pairwise_cons.mp hm
    rw [Memory.insertCell]
    split
    · rename_i hlt
      refine List.pairwise_cons.mpr ⟨fun c hc => ?_, hm⟩
      rcases List.mem_cons.mp hc with rfl | hc
      · exact hlt
      · exact lt_trans hlt (hm'.1 c hc)
    · rename_i hlt
      refine List.pairwise_cons.mpr ⟨fun c hc => ?_, ih (fun c hc => h c (by simp [hc])) hm'.2⟩
      rcases Memory.mem_insertCell.mp hc with rfl | hc
      · show k < a; omega
      · exact hm'.1 c hc

theorem Memory.wf_nil : Memory.wf [] := ⟨List.Pairwise.nil, by simp⟩

/-- Memory at reset is in canonical form. -/
theorem State.reset_mem_wf : State.reset.mem.wf := Memory.wf_nil

theorem Memory.wf_eraseCell {m : Memory} (h : m.wf) (a : Nat) : (m.eraseCell a).wf :=
  ⟨h.1.filter _, fun c hc => h.2 c (List.mem_of_mem_filter hc)⟩

/-- A write keeps the canonical form. -/
theorem Memory.wf_write {m : Memory} (h : m.wf) (a : Nat) (v : Byte) : (m.write a v).wf := by
  rw [Memory.write]
  split
  · exact Memory.wf_eraseCell h a
  · rename_i hv
    refine ⟨Memory.pairwise_insertCell (Memory.eraseCell_no_entry m a) (Memory.wf_eraseCell h a).1, fun c hc => ?_⟩
    rcases Memory.mem_insertCell.mp hc with rfl | hc
    · exact hv
    · exact (Memory.wf_eraseCell h a).2 c hc

theorem Memory.wf_writeWord {m : Memory} (h : m.wf) (a : Nat) (v : Word) : (m.writeWord a v).wf :=
  Memory.wf_write (Memory.wf_write (Memory.wf_write (Memory.wf_write h _ _) _ _) _ _) _ _

theorem Memory.wf_load (limit : Nat) (bs : List Byte) {m : Memory} (h : m.wf) (i : Nat) :
    (Memory.load limit m i bs).wf := by
  induction bs generalizing m i with
  | nil => exact h
  | cons b bs ih =>
    rw [Memory.load]
    split
    · exact ih (Memory.wf_write h _ _) _
    · exact ih h _

/-! ### Entries stay below a bound -/

theorem Memory.lt_write {m : Memory} {n a : Nat} (h : ∀ c ∈ m, c.1 < n) (ha : a < n) (v : Byte) :
    ∀ c ∈ m.write a v, c.1 < n := by
  have he : ∀ c ∈ m.eraseCell a, c.1 < n := fun c hc => h c (List.mem_of_mem_filter hc)
  intro c hc
  rw [Memory.write] at hc
  split at hc
  · exact he c hc
  · rcases Memory.mem_insertCell.mp hc with rfl | hc
    · exact ha
    · exact he c hc

theorem Memory.lt_writeWord {m : Memory} {n a : Nat} (h : ∀ c ∈ m, c.1 < n) (ha : a + 4 ≤ n) (v : Word) :
    ∀ c ∈ m.writeWord a v, c.1 < n :=
  Memory.lt_write (Memory.lt_write (Memory.lt_write (Memory.lt_write h (by omega) _) (by omega) _)
    (by omega) _) (by omega) _

theorem Memory.lt_load {n : Nat} (bs : List Byte) {m : Memory} (h : ∀ c ∈ m, c.1 < n) (i : Nat) :
    ∀ c ∈ Memory.load n m i bs, c.1 < n := by
  induction bs generalizing m i with
  | nil => exact h
  | cons b bs ih =>
    rw [Memory.load]
    split
    · rename_i hi; exact ih (Memory.lt_write h hi _) _
    · exact ih h _

/-! ### Words -/

/-- A byte outside the four stored ones is unchanged. -/
theorem Memory.read_writeWord_of_outside {a x : Nat} (h : x < a ∨ a + 4 ≤ x) (m : Memory) (v : Word) :
    (m.writeWord a v).read x = m.read x := by
  rw [Memory.writeWord, Memory.read_write_of_ne (by omega), Memory.read_write_of_ne (by omega),
    Memory.read_write_of_ne (by omega), Memory.read_write_of_ne (by omega)]

/-- The four stored bytes. -/
theorem Memory.read_writeWord_inside (m : Memory) (a : Nat) (v : Word) {k : Nat} (hk : k < 4) :
    (m.writeWord a v).read (a + k) = byteOfWord v k := by
  have h4 : k = 0 ∨ k = 1 ∨ k = 2 ∨ k = 3 := by omega
  rcases h4 with rfl | rfl | rfl | rfl <;> simp [Memory.writeWord, Memory.read_write]

/-- The bytes of a word put together again give the word. -/
theorem wordOfBytes_byteOfWord (w : Word) :
    wordOfBytes (byteOfWord w 0) (byteOfWord w 1) (byteOfWord w 2) (byteOfWord w 3) = w := by
  apply BitVec.eq_of_toNat_eq
  simp only [wordOfBytes, byteOfWord, BitVec.toNat_append, BitVec.extractLsb'_toNat, Nat.shiftRight_eq_div_pow]
  rw [← Nat.shiftLeft_add_eq_or_of_lt (by omega), ← Nat.shiftLeft_add_eq_or_of_lt (by omega),
    ← Nat.shiftLeft_add_eq_or_of_lt (by omega)]
  simp only [Nat.shiftLeft_eq]
  have := w.isLt
  omega

/-- A word read of the word just written gives it back. -/
theorem Memory.readWord_writeWord (m : Memory) (a : Nat) (v : Word) : (m.writeWord a v).readWord a = v := by
  have h0 := Memory.read_writeWord_inside m a v (k := 0) (by omega)
  have h1 := Memory.read_writeWord_inside m a v (k := 1) (by omega)
  have h2 := Memory.read_writeWord_inside m a v (k := 2) (by omega)
  have h3 := Memory.read_writeWord_inside m a v (k := 3) (by omega)
  rw [Nat.add_zero] at h0
  rw [Memory.readWord, h0, h1, h2, h3, wordOfBytes_byteOfWord]

/-! ### Equal reads -/

/-- Canonical memories that read alike everywhere are the same list. -/
theorem Memory.eq_of_read_eq {m n : Memory} (hm : m.wf) (hn : n.wf) (h : ∀ a, m.read a = n.read a) : m = n := by
  have tail : ∀ {k : Nat} {b : Byte} {m : Memory}, Memory.wf ((k, b) :: m) → m.wf ∧ (∀ c ∈ m, k < c.1) ∧
      b ≠ Memory.unlisted := fun hw =>
    ⟨⟨(List.pairwise_cons.mp hw.1).2, fun c hc => hw.2 c (by simp [hc])⟩, (List.pairwise_cons.mp hw.1).1,
      hw.2 (_, _) (List.mem_cons_self ..)⟩
  have low : ∀ {k a : Nat} {m : Memory}, (∀ c ∈ m, k < c.1) → a ≤ k → m.read a = Memory.unlisted := fun hl ha =>
    Memory.read_of_forall_ne fun c hc => by have := hl c hc; omega
  induction m generalizing n with
  | nil =>
    cases n with
    | nil => rfl
    | cons d n =>
      obtain ⟨k, b⟩ := d
      have := h k
      rw [Memory.read_cons, if_pos rfl] at this
      exact absurd this.symm (tail hn).2.2
  | cons c m ih =>
    obtain ⟨k, b⟩ := c
    obtain ⟨hm', hkm, hb⟩ := tail hm
    cases n with
    | nil =>
      have := h k
      rw [Memory.read_cons, if_pos rfl] at this
      exact absurd this hb
    | cons d n =>
      obtain ⟨l, e⟩ := d
      obtain ⟨hn', hln, he⟩ := tail hn
      have hkl : k = l := by
        rcases Nat.lt_trichotomy k l with hlt | heq | hgt
        · have := h k
          rw [Memory.read_cons, if_pos rfl, Memory.read_cons, if_neg (by omega), low hln (by omega)] at this
          exact absurd this hb
        · exact heq
        · have := h l
          rw [Memory.read_cons, if_neg (by omega), low hkm (by omega), Memory.read_cons, if_pos rfl] at this
          exact absurd this.symm he
      subst hkl
      have hbe : b = e := by
        have := h k
        rwa [Memory.read_cons, if_pos rfl, Memory.read_cons, if_pos rfl] at this
      subst hbe
      rw [ih hm' hn' fun a => ?_]
      by_cases hak : k = a
      · subst hak; rw [low hkm le_rfl, low hln le_rfl]
      · have := h a
        rwa [Memory.read_cons, if_neg hak, Memory.read_cons, if_neg hak] at this

end Sys2Proof.Machine
end

