-- ==== Sys2Proof/Laws/State.lean ====
section
/-! SUPPORT. One lemma per field per update of the state, so that no proof unfolds a record update. -/

namespace Sys2Proof.Machine

/-! ### `writeReg` -/

@[simp] theorem State.writeReg_mem (s : State) (r : Reg) (v : Word) : (s.writeReg r v).mem = s.mem := by
  cases r <;> rfl
@[simp] theorem State.writeReg_run (s : State) (r : Reg) (v : Word) : (s.writeReg r v).run = s.run := by
  cases r <;> rfl
@[simp] theorem State.writeReg_cfg (s : State) (r : Reg) (v : Word) : (s.writeReg r v).cfg = s.cfg := by
  cases r <;> rfl
@[simp] theorem State.writeReg_regs_length (s : State) (r : Reg) (v : Word) :
    (s.writeReg r v).regs.length = s.regs.length := by
  cases r <;> simp [State.writeReg]
@[simp] theorem State.writeReg_r_regs (s : State) (n : Nat) (v : Word) :
    (s.writeReg (.r n) v).regs = s.regs.set n v := rfl
@[simp] theorem State.writeReg_r_pc (s : State) (n : Nat) (v : Word) : (s.writeReg (.r n) v).pc = s.pc := rfl
@[simp] theorem State.writeReg_pc_regs (s : State) (v : Word) : (s.writeReg .pc v).regs = s.regs := rfl
@[simp] theorem State.writeReg_pc_pc (s : State) (v : Word) : (s.writeReg .pc v).pc = v := rfl

/-! ### `readReg` under field updates -/

@[simp] theorem State.readReg_pc (s : State) : s.readReg .pc = s.pc := rfl
@[simp] theorem State.readReg_with_mem (s : State) (m : Memory) (r : Reg) :
    ({ s with mem := m } : State).readReg r = s.readReg r := by cases r <;> rfl
@[simp] theorem State.readReg_with_run (s : State) (x : RunState) (r : Reg) :
    ({ s with run := x } : State).readReg r = s.readReg r := by cases r <;> rfl

/-! ### `advance` -/

@[simp] theorem State.advance_regs (s : State) : s.advance.regs = s.regs := rfl
@[simp] theorem State.advance_pc (s : State) : s.advance.pc = s.pc + 4 := rfl
@[simp] theorem State.advance_mem (s : State) : s.advance.mem = s.mem := rfl
@[simp] theorem State.advance_run (s : State) : s.advance.run = s.run := rfl
@[simp] theorem State.advance_cfg (s : State) : s.advance.cfg = s.cfg := rfl
@[simp] theorem State.advance_readReg_r (s : State) (n : Nat) :
    s.advance.readReg (.r n) = s.readReg (.r n) := rfl

/-! ### `raise` -/

@[simp] theorem State.raise_regs (s : State) (c : FaultCause) : (s.raise c).regs = s.regs := rfl
@[simp] theorem State.raise_pc (s : State) (c : FaultCause) : (s.raise c).pc = s.pc := rfl
@[simp] theorem State.raise_mem (s : State) (c : FaultCause) : (s.raise c).mem = s.mem := rfl
@[simp] theorem State.raise_cfg (s : State) (c : FaultCause) : (s.raise c).cfg = s.cfg := rfl
@[simp] theorem State.raise_run (s : State) (c : FaultCause) :
    (s.raise c).run = .faulted { cause := c, faultPc := s.pc } := rfl
@[simp] theorem State.raise_readReg (s : State) (c : FaultCause) (r : Reg) :
    (s.raise c).readReg r = s.readReg r := by cases r <;> rfl

/-! ### Construction, image load, placement of a word -/

@[simp] theorem State.construct_regs (c : Config) : (State.construct c).regs = List.replicate c.nreg 0 := rfl
@[simp] theorem State.construct_pc (c : Config) : (State.construct c).pc = 0 := rfl
@[simp] theorem State.construct_mem (c : Config) : (State.construct c).mem = [] := rfl
@[simp] theorem State.construct_run (c : Config) : (State.construct c).run = .running := rfl
@[simp] theorem State.construct_cfg (c : Config) : (State.construct c).cfg = c := rfl

@[simp] theorem State.load_regs (s : State) (img : List Byte) : (s.load img).regs = s.regs := rfl
@[simp] theorem State.load_pc (s : State) (img : List Byte) : (s.load img).pc = s.pc := rfl
@[simp] theorem State.load_run (s : State) (img : List Byte) : (s.load img).run = s.run := rfl
@[simp] theorem State.load_cfg (s : State) (img : List Byte) : (s.load img).cfg = s.cfg := rfl
@[simp] theorem State.load_mem (s : State) (img : List Byte) :
    (s.load img).mem = Memory.load s.cfg.memSize s.mem 0 img := rfl

@[simp] theorem State.placeFetchWord_regs (s : State) (w : Word) : (s.placeFetchWord w).regs = s.regs := rfl
@[simp] theorem State.placeFetchWord_pc (s : State) (w : Word) : (s.placeFetchWord w).pc = s.pc := rfl
@[simp] theorem State.placeFetchWord_run (s : State) (w : Word) : (s.placeFetchWord w).run = .running := rfl
@[simp] theorem State.placeFetchWord_cfg (s : State) (w : Word) : (s.placeFetchWord w).cfg = s.cfg := rfl

/-! ### Reading back a register -/

/-- The identifier has an entry in this state's register file. -/
def State.has (s : State) : Reg → Prop
  | .r n => n < s.regs.length
  | .pc => True

theorem State.has_of_existsIn {s : State} {r : Reg} (hs : s.regs.length = s.cfg.nreg)
    (h : r.existsIn s.cfg.nreg = true) : s.has r := by
  cases r with
  | r n => simpa [State.has, hs, Reg.existsIn] using h
  | pc => trivial

theorem State.readReg_writeReg_self {s : State} {r : Reg} (h : s.has r) (v : Word) :
    (s.writeReg r v).readReg r = v := by
  cases r with
  | r n => simp [State.readReg, List.getD_eq_getElem?_getD, List.getElem?_set_self (show n < s.regs.length from h)]
  | pc => rfl

theorem State.readReg_writeReg_of_ne {s : State} {r q : Reg} (h : q ≠ r) (v : Word) :
    (s.writeReg r v).readReg q = s.readReg q := by
  cases r with
  | r n =>
    cases q with
    | r k =>
      have hk : n ≠ k := fun e => h (by rw [e])
      simp [State.readReg, List.getD_eq_getElem?_getD, List.getElem?_set_ne hk]
    | pc => rfl
  | pc =>
    cases q with
    | r k => rfl
    | pc => exact absurd rfl h

/-- Two states with the same fields are the same. -/
theorem State.ext_fields {s t : State} (hr : s.regs = t.regs) (hp : s.pc = t.pc) (hm : s.mem = t.mem)
    (hx : s.run = t.run) (hc : s.cfg = t.cfg) : s = t := by
  cases s; cases t; simp_all

end Sys2Proof.Machine
end

