-- ==== Sys2Proof/Laws/Ops.lean ====
section
/-! SUPPORT. One lemma per shared operation that says once what it can do. -/

namespace Sys2Proof.Machine

/-! ### Bounded accesses -/

theorem State.memReadByte_of_inBounds {s : State} {a : Word} (h : s.inBounds a .byte) (kind : AccessKind) :
    s.memReadByte kind a = .ok (s.mem.read a.toNat) := if_pos h

theorem State.memReadByte_of_not_inBounds {s : State} {a : Word} (h : ¬ s.inBounds a .byte) (kind : AccessKind) :
    s.memReadByte kind a = .error (.outOfBounds kind a .byte) := if_neg h

theorem State.memReadWord_of_inBounds {s : State} {a : Word} (h : s.inBounds a .word) (kind : AccessKind) :
    s.memReadWord kind a = .ok (s.mem.readWord a.toNat) := if_pos h

theorem State.memReadWord_of_not_inBounds {s : State} {a : Word} (h : ¬ s.inBounds a .word) (kind : AccessKind) :
    s.memReadWord kind a = .error (.outOfBounds kind a .word) := if_neg h

theorem State.memWriteByte_of_inBounds {s : State} {a : Word} (h : s.inBounds a .byte) (v : Byte) :
    s.memWriteByte a v = .ok { s with mem := s.mem.write a.toNat v } := if_pos h

theorem State.memWriteByte_of_not_inBounds {s : State} {a : Word} (h : ¬ s.inBounds a .byte) (v : Byte) :
    s.memWriteByte a v = .error (.outOfBounds .store a .byte) := if_neg h

theorem State.memWriteWord_of_inBounds {s : State} {a : Word} (h : s.inBounds a .word) (v : Word) :
    s.memWriteWord a v = .ok { s with mem := s.mem.writeWord a.toNat v } := if_pos h

theorem State.memWriteWord_of_not_inBounds {s : State} {a : Word} (h : ¬ s.inBounds a .word) (v : Word) :
    s.memWriteWord a v = .error (.outOfBounds .store a .word) := if_neg h

/-! ### `execute` -/

theorem execute_of_ok {s t : State} {body : State → Except FaultCause State} (h : body s.advance = .ok t) :
    execute s body = .next t := by rw [execute, h]

theorem execute_of_error {s : State} {c : FaultCause} {body : State → Except FaultCause State}
    (h : body s.advance = .error c) : execute s body = .next (s.raise c) := by rw [execute, h]

/-- What `execute` answers: the body's state, or the fault taken. -/
theorem execute_cases {s t : State} {body : State → Except FaultCause State} (h : execute s body = .next t) :
    body s.advance = .ok t ∨ ∃ c, body s.advance = .error c ∧ t = s.raise c := by
  rw [execute] at h
  split at h
  · rename_i u hu; injection h with h; exact .inl (h ▸ hu)
  · rename_i c hc; injection h with h; exact .inr ⟨c, hc, h.symm⟩

/-! ### Operands -/

theorem State.readReg_advance (s : State) (r : Reg) : s.advance.readReg r = s.operand r := by
  cases r <;> rfl

theorem State.has_advance {s : State} {r : Reg} (h : s.has r) : s.advance.has r := by cases r <;> exact h

/-- Writing `rA` after the advance leaves everything else. -/
theorem leavesAllBut_writeReg (s : State) (rA : Reg) (v : Word) :
    LeavesAllBut rA s (s.advance.writeReg rA v) where
  registers q hq := by rw [State.readReg_writeReg_of_ne hq, State.readReg_advance]
  memory a := by simp
  run := by simp
  cfg := by simp

/-- An instruction whose step is one register write writes its result. -/
theorem writesResult_of_exec {i : Instr} {s : State} {rA : Reg} {v : Word} (hr : s.has rA)
    (h : exec i s = .next (s.advance.writeReg rA v)) : WritesResult i s rA v :=
  ⟨_, h, State.readReg_writeReg_self (State.has_advance hr) v, leavesAllBut_writeReg s rA v⟩

/-- The model's word read is the little-endian combination of its four bytes. -/
theorem Memory.readWord_eq_littleEndianWord (m : Memory) (a : Nat) : m.readWord a = littleEndianWord m a := by
  apply BitVec.eq_of_toNat_eq
  have h0 := (m.read a).isLt
  have h1 := (m.read (a + 1)).isLt
  have h2 := (m.read (a + 2)).isLt
  have h3 := (m.read (a + 3)).isLt
  simp only [Memory.readWord, wordOfBytes, littleEndianWord, BitVec.toNat_append, BitVec.toNat_or,
    BitVec.toNat_shiftLeft, BitVec.toNat_setWidth, Nat.shiftLeft_eq]
  rw [Nat.mod_eq_of_lt (a := (m.read a).toNat) (by omega), Nat.mod_eq_of_lt (a := (m.read (a + 1)).toNat) (by omega),
    Nat.mod_eq_of_lt (a := (m.read (a + 2)).toNat) (by omega),
    Nat.mod_eq_of_lt (a := (m.read (a + 3)).toNat) (by omega),
    Nat.mod_eq_of_lt (a := (m.read (a + 1)).toNat * 2 ^ 8) (by omega),
    Nat.mod_eq_of_lt (a := (m.read (a + 2)).toNat * 2 ^ 16) (by omega),
    Nat.mod_eq_of_lt (a := (m.read (a + 3)).toNat * 2 ^ 24) (by omega)]
  simp only [← Nat.shiftLeft_eq, Nat.shiftLeft_or_distrib, ← Nat.shiftLeft_add]
  simp only [Nat.reduceAdd]
  generalize (m.read (a + 3)).toNat <<< 24 = x3
  generalize (m.read (a + 2)).toNat <<< 16 = x2
  generalize (m.read (a + 1)).toNat <<< 8 = x1
  rw [Nat.or_comm _ (m.read a).toNat, Nat.or_comm _ x1, Nat.or_comm x3 x2, Nat.or_assoc, Nat.or_assoc]

/-! ### The equation of each meaning -/

theorem exec_nop (s : State) : exec .nop s = .next s.advance := rfl
theorem exec_add (s : State) (a b c : Reg) :
    exec (.add a b c) s = .next (s.advance.writeReg a (s.advance.readReg b + s.advance.readReg c)) := rfl
theorem exec_sub (s : State) (a b c : Reg) :
    exec (.sub a b c) s = .next (s.advance.writeReg a (s.advance.readReg b - s.advance.readReg c)) := rfl
theorem exec_and (s : State) (a b c : Reg) :
    exec (.and a b c) s = .next (s.advance.writeReg a (s.advance.readReg b &&& s.advance.readReg c)) := rfl
theorem exec_orr (s : State) (a b c : Reg) :
    exec (.orr a b c) s = .next (s.advance.writeReg a (s.advance.readReg b ||| s.advance.readReg c)) := rfl
theorem exec_xor (s : State) (a b c : Reg) :
    exec (.xor a b c) s = .next (s.advance.writeReg a (s.advance.readReg b ^^^ s.advance.readReg c)) := rfl
theorem exec_not (s : State) (a b : Reg) :
    exec (.not a b) s = .next (s.advance.writeReg a (~~~ s.advance.readReg b)) := rfl
theorem exec_tcu (s : State) (a b c : Reg) : exec (.tcu a b c) s =
    .next (s.advance.writeReg a (compareUnsigned (s.advance.readReg b) (s.advance.readReg c))) := rfl
theorem exec_tcs (s : State) (a b c : Reg) : exec (.tcs a b c) s =
    .next (s.advance.writeReg a (compareSigned (s.advance.readReg b) (s.advance.readReg c))) := rfl
theorem exec_set (s : State) (a : Reg) (imm : Word) :
    exec (.set a imm) s = .next (s.advance.writeReg a imm) := rfl
theorem exec_mov (s : State) (a b : Reg) :
    exec (.mov a b) s = .next (s.advance.writeReg a (s.advance.readReg b)) := rfl

theorem exec_lsh_of_ok {s : State} {a b c : Reg} {v : Word}
    (h : lshResult s.cfg.shiftOor (s.advance.readReg b) (s.advance.readReg c) = .ok v) :
    exec (.lsh a b c) s = .next (s.advance.writeReg a v) :=
  execute_of_ok (body := binaryOrFault (lshResult s.cfg.shiftOor) a b c) (by rw [binaryOrFault, h])
theorem exec_lsh_of_error {s : State} {a b c : Reg} {e : FaultCause}
    (h : lshResult s.cfg.shiftOor (s.advance.readReg b) (s.advance.readReg c) = .error e) :
    exec (.lsh a b c) s = .next (s.raise e) :=
  execute_of_error (body := binaryOrFault (lshResult s.cfg.shiftOor) a b c) (by rw [binaryOrFault, h])
theorem exec_ash_of_ok {s : State} {a b c : Reg} {v : Word}
    (h : ashResult s.cfg.shiftOor (s.advance.readReg b) (s.advance.readReg c) = .ok v) :
    exec (.ash a b c) s = .next (s.advance.writeReg a v) :=
  execute_of_ok (body := binaryOrFault (ashResult s.cfg.shiftOor) a b c) (by rw [binaryOrFault, h])
theorem exec_ash_of_error {s : State} {a b c : Reg} {e : FaultCause}
    (h : ashResult s.cfg.shiftOor (s.advance.readReg b) (s.advance.readReg c) = .error e) :
    exec (.ash a b c) s = .next (s.raise e) :=
  execute_of_error (body := binaryOrFault (ashResult s.cfg.shiftOor) a b c) (by rw [binaryOrFault, h])

theorem exec_ldw_of_inBounds {s : State} {a b : Reg} (h : s.inBounds (s.advance.readReg b) .word) :
    exec (.ldw a b) s =
      .next (s.advance.writeReg a (s.mem.readWord (s.advance.readReg b).toNat)) := by
  show execLdw a b s = _
  exact execute_of_ok (by simp only [State.memReadWord_of_inBounds (s := s.advance) h]; rfl)
theorem exec_ldw_of_not_inBounds {s : State} {a b : Reg} (h : ¬ s.inBounds (s.advance.readReg b) .word) :
    exec (.ldw a b) s = .next (s.raise (.outOfBounds .load (s.advance.readReg b) .word)) := by
  show execLdw a b s = _
  exact execute_of_error (by simp only [State.memReadWord_of_not_inBounds (s := s.advance) h])

theorem exec_ldb_of_inBounds {s : State} {a b : Reg} (h : s.inBounds (s.advance.readReg b) .byte) :
    exec (.ldb a b) s = .next (s.advance.writeReg a
      (ldbCombine s.cfg.ldbMode (s.advance.readReg a) (s.mem.read (s.advance.readReg b).toNat))) := by
  show execLdb a b s = _
  exact execute_of_ok (by simp only [State.memReadByte_of_inBounds (s := s.advance) h]; rfl)
theorem exec_ldb_of_not_inBounds {s : State} {a b : Reg} (h : ¬ s.inBounds (s.advance.readReg b) .byte) :
    exec (.ldb a b) s = .next (s.raise (.outOfBounds .load (s.advance.readReg b) .byte)) := by
  show execLdb a b s = _
  exact execute_of_error (by simp only [State.memReadByte_of_not_inBounds (s := s.advance) h])

theorem exec_stw_of_inBounds {s : State} {a b : Reg} (h : s.inBounds (s.advance.readReg a) .word) :
    exec (.stw a b) s = .next { s.advance with
      mem := s.mem.writeWord (s.advance.readReg a).toNat (s.advance.readReg b) } := by
  show execStw a b s = _
  exact execute_of_ok (State.memWriteWord_of_inBounds (s := s.advance) h _)
theorem exec_stw_of_not_inBounds {s : State} {a b : Reg} (h : ¬ s.inBounds (s.advance.readReg a) .word) :
    exec (.stw a b) s = .next (s.raise (.outOfBounds .store (s.advance.readReg a) .word)) := by
  show execStw a b s = _
  exact execute_of_error (State.memWriteWord_of_not_inBounds (s := s.advance) h _)

theorem exec_stb_of_inBounds {s : State} {a b : Reg} (h : s.inBounds (s.advance.readReg a) .byte) :
    exec (.stb a b) s = .next { s.advance with
      mem := s.mem.write (s.advance.readReg a).toNat (byteOfWord (s.advance.readReg b) 0) } := by
  show execStb a b s = _
  exact execute_of_ok (State.memWriteByte_of_inBounds (s := s.advance) h _)
theorem exec_stb_of_not_inBounds {s : State} {a b : Reg} (h : ¬ s.inBounds (s.advance.readReg a) .byte) :
    exec (.stb a b) s = .next (s.raise (.outOfBounds .store (s.advance.readReg a) .byte)) := by
  show execStb a b s = _
  exact execute_of_error (State.memWriteByte_of_not_inBounds (s := s.advance) h _)

/-! ### Shifts -/

/-- What Lsh computes: a value, or the shift fault with a magnitude of 32 or more under `fault`. -/
theorem lshResult_cases (mode : ShiftOor) (b c : Word) :
    (∃ v, lshResult mode b c = .ok v) ∨
      (mode = .fault ∧ 32 ≤ shiftMagnitude c ∧ lshResult mode b c = .error (.shiftOutOfRange .lsh c)) := by
  unfold lshResult shiftOOR
  split
  · exact .inl ⟨_, rfl⟩
  · cases mode
    · exact .inr ⟨rfl, by omega, rfl⟩
    · exact .inl ⟨_, rfl⟩
    · exact .inl ⟨_, rfl⟩

/-- What Ash computes: a value, or the shift fault with a magnitude of 32 or more under `fault`. -/
theorem ashResult_cases (mode : ShiftOor) (b c : Word) :
    (∃ v, ashResult mode b c = .ok v) ∨
      (mode = .fault ∧ 32 ≤ shiftMagnitude c ∧ ashResult mode b c = .error (.shiftOutOfRange .ash c)) := by
  unfold ashResult shiftOOR
  split
  · exact .inl ⟨_, rfl⟩
  · cases mode
    · exact .inr ⟨rfl, by omega, rfl⟩
    · exact .inl ⟨_, rfl⟩
    · exact .inl ⟨_, rfl⟩

/-! ### What a meaning can do -/

/-- The execution fault an instruction can raise in a state (60_exceptions.md R154). -/
inductive ExecFault (s : State) : Instr → FaultCause → Prop where
  | ldw {a b : Reg} (h : ¬ s.inBounds (s.operand b) .word) :
      ExecFault s (.ldw a b) (.outOfBounds .load (s.operand b) .word)
  | ldb {a b : Reg} (h : ¬ s.inBounds (s.operand b) .byte) :
      ExecFault s (.ldb a b) (.outOfBounds .load (s.operand b) .byte)
  | stw {a b : Reg} (h : ¬ s.inBounds (s.operand a) .word) :
      ExecFault s (.stw a b) (.outOfBounds .store (s.operand a) .word)
  | stb {a b : Reg} (h : ¬ s.inBounds (s.operand a) .byte) :
      ExecFault s (.stb a b) (.outOfBounds .store (s.operand a) .byte)
  | lsh {a b c : Reg} (hm : s.cfg.shiftOor = .fault) (h : 32 ≤ shiftMagnitude (s.operand c)) :
      ExecFault s (.lsh a b c) (.shiftOutOfRange .lsh (s.operand c))
  | ash {a b c : Reg} (hm : s.cfg.shiftOor = .fault) (h : 32 ≤ shiftMagnitude (s.operand c)) :
      ExecFault s (.ash a b c) (.shiftOutOfRange .ash (s.operand c))

/-- Everything an instruction's execution can do to the state `s` before the step. -/
inductive Effect (s : State) : Instr → State → Prop where
  /-- nothing but the advance (Nop) -/
  | advance : Effect s .nop s.advance
  /-- one register write, to the instruction's destination -/
  | write {i : Instr} {rA : Reg} (hd : i.destination = some rA) (v : Word) :
      Effect s i (s.advance.writeReg rA v)
  /-- one word store -/
  | storeWord {rA rB : Reg} (h : s.inBounds (s.operand rA) .word) :
      Effect s (.stw rA rB) { s.advance with mem := s.mem.writeWord (s.operand rA).toNat (s.operand rB) }
  /-- one byte store -/
  | storeByte {rA rB : Reg} (h : s.inBounds (s.operand rA) .byte) :
      Effect s (.stb rA rB)
        { s.advance with mem := s.mem.write (s.operand rA).toNat (byteOfWord (s.operand rB) 0) }
  /-- a fault taken -/
  | fault {i : Instr} {c : FaultCause} (h : ExecFault s i c) : Effect s i (s.raise c)

/-- Every instruction answers a next state, and its effect is one of those. -/
theorem exec_effect (i : Instr) (s : State) : ∃ t, exec i s = .next t ∧ Effect s i t := by
  cases i with
  | nop => exact ⟨_, exec_nop s, .advance⟩
  | add a b c => exact ⟨_, exec_add s a b c, .write rfl _⟩
  | sub a b c => exact ⟨_, exec_sub s a b c, .write rfl _⟩
  | and a b c => exact ⟨_, exec_and s a b c, .write rfl _⟩
  | orr a b c => exact ⟨_, exec_orr s a b c, .write rfl _⟩
  | xor a b c => exact ⟨_, exec_xor s a b c, .write rfl _⟩
  | not a b => exact ⟨_, exec_not s a b, .write rfl _⟩
  | tcu a b c => exact ⟨_, exec_tcu s a b c, .write rfl _⟩
  | tcs a b c => exact ⟨_, exec_tcs s a b c, .write rfl _⟩
  | set a imm => exact ⟨_, exec_set s a imm, .write rfl _⟩
  | mov a b => exact ⟨_, exec_mov s a b, .write rfl _⟩
  | lsh a b c =>
    rcases lshResult_cases s.cfg.shiftOor (s.advance.readReg b) (s.advance.readReg c) with ⟨v, hv⟩ | ⟨hm, hk, he⟩
    · exact ⟨_, exec_lsh_of_ok hv, .write rfl _⟩
    · rw [State.readReg_advance s c] at hk
      exact ⟨_, exec_lsh_of_error he, by rw [State.readReg_advance]; exact .fault (.lsh hm hk)⟩
  | ash a b c =>
    rcases ashResult_cases s.cfg.shiftOor (s.advance.readReg b) (s.advance.readReg c) with ⟨v, hv⟩ | ⟨hm, hk, he⟩
    · exact ⟨_, exec_ash_of_ok hv, .write rfl _⟩
    · rw [State.readReg_advance s c] at hk
      exact ⟨_, exec_ash_of_error he, by rw [State.readReg_advance]; exact .fault (.ash hm hk)⟩
  | ldw a b =>
    by_cases h : s.inBounds (s.advance.readReg b) .word
    · exact ⟨_, exec_ldw_of_inBounds h, .write rfl _⟩
    · exact ⟨_, exec_ldw_of_not_inBounds h, by rw [State.readReg_advance] at h ⊢; exact .fault (.ldw h)⟩
  | ldb a b =>
    by_cases h : s.inBounds (s.advance.readReg b) .byte
    · exact ⟨_, exec_ldb_of_inBounds h, .write rfl _⟩
    · exact ⟨_, exec_ldb_of_not_inBounds h, by rw [State.readReg_advance] at h ⊢; exact .fault (.ldb h)⟩
  | stw a b =>
    by_cases h : s.inBounds (s.advance.readReg a) .word
    · refine ⟨_, exec_stw_of_inBounds h, ?_⟩
      simp only [State.readReg_advance] at h ⊢
      exact .storeWord h
    · exact ⟨_, exec_stw_of_not_inBounds h, by rw [State.readReg_advance] at h ⊢; exact .fault (.stw h)⟩
  | stb a b =>
    by_cases h : s.inBounds (s.advance.readReg a) .byte
    · refine ⟨_, exec_stb_of_inBounds h, ?_⟩
      simp only [State.readReg_advance] at h ⊢
      exact .storeByte h
    · exact ⟨_, exec_stb_of_not_inBounds h, by rw [State.readReg_advance] at h ⊢; exact .fault (.stb h)⟩

/-- The effect of an answered next state. -/
theorem effect_of_exec {i : Instr} {s t : State} (h : exec i s = .next t) : Effect s i t := by
  obtain ⟨u, hu, he⟩ := exec_effect i s
  rw [h] at hu; injection hu with hu; exact hu ▸ he

/-! ### What a step can do -/

/-- Everything a step can answer. -/
theorem stepWith_cases {decode : Decoder} {s t : State} (h : stepWith decode s = .next t) :
    s.run = .running ∧
      ((∃ c, fetchDecode decode s = .error c ∧ t = s.raise c) ∨
        ∃ i, fetchDecode decode s = .ok i ∧ exec i s = .next t) := by
  rw [stepWith] at h
  split at h
  · exact absurd h (by simp)
  · rename_i hr
    refine ⟨hr, ?_⟩
    split at h
    · rename_i c hc; injection h with h; exact .inl ⟨c, hc, h.symm⟩
    · rename_i i hi; exact .inr ⟨i, hi, h⟩

theorem fetchDecode_of_not_inBounds {decode : Decoder} {s : State} (h : ¬ s.inBounds s.pc .word) :
    fetchDecode decode s = .error (.outOfBounds .fetch s.pc .word) := by
  rw [fetchDecode, State.fetch, State.readReg_pc, State.memReadWord_of_not_inBounds h]

theorem fetchDecode_of_decodes {decode : Decoder} {s : State} {d : DecodedInstruction s.cfg.nreg}
    (h : s.inBounds s.pc .word) (hd : decode s.cfg.nreg (littleEndianWord s.mem s.pc.toNat) = some d) :
    fetchDecode decode s = .ok d.instr := by
  unfold fetchDecode State.fetch
  simp only [State.readReg_pc, State.memReadWord_of_inBounds h, Memory.readWord_eq_littleEndianWord, hd]

theorem fetchDecode_of_undecoded {decode : Decoder} {s : State}
    (h : s.inBounds s.pc .word) (hd : decode s.cfg.nreg (littleEndianWord s.mem s.pc.toNat) = none) :
    fetchDecode decode s = .error (.invalidEncoding (littleEndianWord s.mem s.pc.toNat)) := by
  unfold fetchDecode State.fetch
  simp only [State.readReg_pc, State.memReadWord_of_inBounds h, Memory.readWord_eq_littleEndianWord, hd]

theorem fetchDecode_reference_of_some {s : State} {i : Instr} (h : s.inBounds s.pc .word)
    (hd : decodeSRE s.cfg.nreg (littleEndianWord s.mem s.pc.toNat) = some i) :
    fetchDecode referenceDecoder s = .ok i := fetchDecode_of_decodes h (referenceDecoder_of_some hd)

theorem fetchDecode_reference_of_none {s : State} (h : s.inBounds s.pc .word)
    (hd : decodeSRE s.cfg.nreg (littleEndianWord s.mem s.pc.toNat) = none) :
    fetchDecode referenceDecoder s = .error (.invalidEncoding (littleEndianWord s.mem s.pc.toNat)) :=
  fetchDecode_of_undecoded h (referenceDecoder_of_none hd)

/-- What a Running core fetches and decodes is what `Fetches` says. -/
theorem fetchDecode_reference_eq_ok {s : State} {i : Instr} (hr : s.run = .running) :
    fetchDecode referenceDecoder s = .ok i ↔ Fetches s i := by
  refine ⟨fun h => ?_, fun h => fetchDecode_reference_of_some h.inBounds h.decodes⟩
  by_cases hb : s.inBounds s.pc .word
  · cases hd : decodeSRE s.cfg.nreg (littleEndianWord s.mem s.pc.toNat) with
    | none => rw [fetchDecode_reference_of_none hb hd] at h; exact absurd h (by simp)
    | some j =>
      rw [fetchDecode_reference_of_some hb hd] at h
      injection h with h
      exact ⟨hr, hb, h ▸ hd⟩
  · rw [fetchDecode_of_not_inBounds hb] at h; exact absurd h (by simp)

/-- What execution gets from fetch and decode names only registers that exist, whatever the decoder (R53). -/
theorem registersExist_of_fetchDecode {decode : Decoder} {s : State} {i : Instr} (h : fetchDecode decode s = .ok i) :
    i.registersExist s.cfg.nreg = true := by
  unfold fetchDecode at h
  split at h
  · exact absurd h (by simp)
  · split at h
    · exact absurd h (by simp)
    · rename_i d _; injection h with h; exact h ▸ d.registersExist

/-! ### Runs -/

/-- Running one step more (for the claims made with `CompletesSteps`). -/
theorem core_run_succ_of_next {s t : State} (n : Nat) (h : step s = .next t) :
    core.run (n + 1) s = core.run n t := by
  have h' : core.step s = .next t := h
  exact (Host.Core.run.eq_2 core s n).trans (by rw [h'])

/-- A run that answers a state after one step more has taken that step. -/
theorem core_run_succ_eq_next {s t : State} {n : Nat} (h : core.run (n + 1) s = .next t) :
    ∃ u, step s = .next u ∧ core.run n u = .next t := by
  have he := (Host.Core.run.eq_2 core s n).symm.trans h
  cases hs : core.step s with
  | next u => exact ⟨u, hs, by rw [hs] at he; exact he⟩
  | fault r => rw [hs] at he; exact absurd he (by simp)
  | refused r => rw [hs] at he; exact absurd he (by simp)

/-- The run of `m + n` steps is the run of `n` steps from where `m` steps end. -/
theorem core_run_add {s t : State} {m : Nat} (n : Nat) (h : core.run m s = .next t) :
    core.run (m + n) s = core.run n t := by
  induction m generalizing s with
  | zero =>
    have h0 : (Host.Outcome.next s : Result) = .next t := h
    injection h0 with h0
    rw [Nat.zero_add, h0]
  | succ m ih =>
    obtain ⟨u, hu, hr⟩ := core_run_succ_eq_next h
    rw [Nat.add_right_comm, core_run_succ_of_next _ hu, ih hr]

end Sys2Proof.Machine
end

