-- ==== Sys2Proof/Laws/PerInstr.lean ====
section
/-! SUPPORT. Statements about every instruction, one lemma per constructor. `EncodedOpcode`: the encoder puts the instruction's
opcode, and nothing else, into bits 7:0 of its word (30_encoding.md R56, R57, R61). -/

namespace Sys2Proof.Laws.EncodedOpcode

/-- Bits 7:0 of the canonical word are the opcode, an assigned one. -/
def Statement (i : Instr) : Prop :=
  ∀ nreg, opField (encode nreg i) = i.opcode ∧ i.opcode.toNat ≤ 0x10

theorem nop : Statement .nop := fun _ => ⟨opField_packN _ _, by simp [Instr.opcode]⟩
theorem add (rA rB rC : Reg) : Statement (.add rA rB rC) := fun _ => ⟨opField_pack _ _ _ _, by simp [Instr.opcode]⟩
theorem sub (rA rB rC : Reg) : Statement (.sub rA rB rC) := fun _ => ⟨opField_pack _ _ _ _, by simp [Instr.opcode]⟩
theorem and (rA rB rC : Reg) : Statement (.and rA rB rC) := fun _ => ⟨opField_pack _ _ _ _, by simp [Instr.opcode]⟩
theorem orr (rA rB rC : Reg) : Statement (.orr rA rB rC) := fun _ => ⟨opField_pack _ _ _ _, by simp [Instr.opcode]⟩
theorem xor (rA rB rC : Reg) : Statement (.xor rA rB rC) := fun _ => ⟨opField_pack _ _ _ _, by simp [Instr.opcode]⟩
theorem not (rA rB : Reg) : Statement (.not rA rB) := fun _ => ⟨opField_pack _ _ _ _, by simp [Instr.opcode]⟩
theorem lsh (rA rB rC : Reg) : Statement (.lsh rA rB rC) := fun _ => ⟨opField_pack _ _ _ _, by simp [Instr.opcode]⟩
theorem ash (rA rB rC : Reg) : Statement (.ash rA rB rC) := fun _ => ⟨opField_pack _ _ _ _, by simp [Instr.opcode]⟩
theorem tcu (rA rB rC : Reg) : Statement (.tcu rA rB rC) := fun _ => ⟨opField_pack _ _ _ _, by simp [Instr.opcode]⟩
theorem tcs (rA rB rC : Reg) : Statement (.tcs rA rB rC) := fun _ => ⟨opField_pack _ _ _ _, by simp [Instr.opcode]⟩
theorem set (rA : Reg) (imm : Word) : Statement (.set rA imm) := fun _ => ⟨opField_packImm _ _ _, by simp [Instr.opcode]⟩
theorem mov (rA rB : Reg) : Statement (.mov rA rB) := fun _ => ⟨opField_pack _ _ _ _, by simp [Instr.opcode]⟩
theorem ldw (rA rB : Reg) : Statement (.ldw rA rB) := fun _ => ⟨opField_pack _ _ _ _, by simp [Instr.opcode]⟩
theorem stw (rA rB : Reg) : Statement (.stw rA rB) := fun _ => ⟨opField_pack _ _ _ _, by simp [Instr.opcode]⟩
theorem ldb (rA rB : Reg) : Statement (.ldb rA rB) := fun _ => ⟨opField_pack _ _ _ _, by simp [Instr.opcode]⟩
theorem stb (rA rB : Reg) : Statement (.stb rA rB) := fun _ => ⟨opField_pack _ _ _ _, by simp [Instr.opcode]⟩

end Sys2Proof.Laws.EncodedOpcode
end

