-- ==== Sys2Proof/Tests/Slice0.lean ====
section
/-! SUPPORT. The model's own tests: WellFormed smoke tests, words written out from the encodings of 30_encoding.md, one-step tests
(expected values from 95_test_vectors.md and the rules' own examples; the vector's id stands in the name), the laws each
memory operation must keep at its edges, and a witness for every statement with hypotheses. -/

open Sys2Proof
open Sys2Proof.Machine

namespace Sys2Proof.Tests

/-! ### WellFormed: an ill-formed term for each check, refused -/

theorem test_register_above_nreg_is_ill_formed : (Instr.add (.r 32) (.r 1) (.r 2)).wellFormed 32 = false := by decide
theorem test_source_above_nreg_is_ill_formed : (Instr.ldw (.r 1) (.r 255)).wellFormed 32 = false := by decide
theorem test_unencodable_constant_is_ill_formed : (Instr.set (.r 1) 0x00008000).wellFormed 32 = false := by decide
theorem test_lowest_constant_is_well_formed : (Instr.set (.r 1) 0xFFFF8000).wellFormed 32 = true := by decide
theorem test_pc_operands_are_well_formed : (Instr.xor .pc .pc .pc).wellFormed 1 = true := by decide

/-! ### Decoding: words written out from the field table of R56 and the opcodes of R57, `C_B_A_op` -/

theorem test_decode_nop_ignored_bits : decodeSRE 32 0xFFFFFF00 = some .nop := by decide -- V-NOP-2
theorem test_decode_add : decodeSRE 32 0x02010301 = some (.add (.r 3) (.r 1) (.r 2)) := by decide -- V-ADD-1
theorem test_decode_sub : decodeSRE 32 0x02010302 = some (.sub (.r 3) (.r 1) (.r 2)) := by decide -- V-SUB-1
theorem test_decode_and : decodeSRE 32 0x04060603 = some (.and (.r 6) (.r 6) (.r 4)) := by decide -- P3
theorem test_decode_orr : decodeSRE 32 0x04020204 = some (.orr (.r 2) (.r 2) (.r 4)) := by decide -- P5
theorem test_decode_xor_pc : decodeSRE 32 0x20202005 = some (.xor .pc .pc .pc) := by decide -- V-XOR-3
theorem test_decode_not_ignores_byte3 : decodeSRE 32 0xFF010306 = some (.not (.r 3) (.r 1)) := by decide -- V-NOT-3
theorem test_decode_lsh : decodeSRE 32 0x02010307 = some (.lsh (.r 3) (.r 1) (.r 2)) := by decide -- V-LSH-1
theorem test_decode_ash : decodeSRE 32 0x02010308 = some (.ash (.r 3) (.r 1) (.r 2)) := by decide -- V-ASH-1
theorem test_decode_tcu : decodeSRE 32 0x00010409 = some (.tcu (.r 4) (.r 1) (.r 0)) := by decide -- P3
theorem test_decode_tcs_pc : decodeSRE 32 0x0201200A = some (.tcs .pc (.r 1) (.r 2)) := by decide -- V-TCS-5
theorem test_decode_set_negative : decodeSRE 32 0xFFE4060B = some (.set (.r 6) 0xFFFFFFE4) := by decide -- P3
theorem test_decode_mov_from_pc : decodeSRE 32 0x0020010C = some (.mov (.r 1) .pc) := by decide -- V-SEQ-6
theorem test_decode_ldw : decodeSRE 32 0x0001020D = some (.ldw (.r 2) (.r 1)) := by decide -- V-LDW-1
theorem test_decode_stw_pc : decodeSRE 32 0x0001200E = some (.stw .pc (.r 1)) := by decide -- V-SEQ-9
theorem test_decode_ldb : decodeSRE 32 0x0007050F = some (.ldb (.r 5) (.r 7)) := by decide -- P5
theorem test_decode_stb : decodeSRE 32 0x00040710 = some (.stb (.r 7) (.r 4)) := by decide -- V-STB-1
theorem test_reject_opcode_0x11 : decodeNamed 32 0x00000011 = .error (.unassignedOpcode 0x11) := by decide -- V-SEQ-4
theorem test_reject_rA_above_nreg : decodeNamed 32 0x00002101 = .error (.noSuchRegister 0x21) := by decide -- V-SEQ-5
theorem test_reject_set_rA_above_nreg : decodeSRE 32 0x0005210B = none := by decide -- V-SET-6
/-- PC's field is NREG, so it moves with the parameter (R58). -/
theorem test_pc_field_follows_nreg : decodeSRE 8 0x0001080C = some (.mov .pc (.r 1)) := by decide
theorem test_decode_bytes_of_set : -- R61's example, stored as 0B 01 05 00
    decodeBytes 32 [0x0B, 0x01, 0x05, 0x00, 0xAA] = .ok (.set (.r 1) 5, [0xAA]) := by decide
theorem test_decode_short_input : decodeBytes 32 [0x0B, 0x01] = .error (.shortInput 2) := by decide
theorem test_encode_set_example : encode 32 (.set (.r 1) 5) = 0x0005010B := by decide -- R61
theorem test_encode_add_pc : encode 32 (.add .pc .pc (.r 6)) = 0x06202001 := by decide -- V-SEQ-7
theorem test_table_word_stb : decodeTableWord 32 0x10 = some (.stb (.r 0) (.r 0)) := by decide

/-! ### One step on a small state -/

/-- The reference configuration but for its two modes, fetching at 0x100, with R1, R2, R3 given. -/
def sample (mode : ShiftOor) (ldb : LdbMode) (r1 r2 r3 : Word) : State :=
  { regs := [0, r1, r2, r3] ++ List.replicate 28 0, pc := 0x100, mem := [], run := .running,
    cfg := { Config.reference with shiftOor := mode, ldbMode := ldb } }

/-- The sample in the reference configuration. -/
def ref (r1 r2 r3 : Word) : State := sample .fault .andMerge r1 r2 r3

def next? : Result → Option State
  | .next t => some t
  | .fault _ => none
  | .refused _ => none

/-- The register an executed instruction leaves, if it completed. -/
def left (r : Reg) (o : Result) : Option Word :=
  (next? o).bind fun t => if t.run = .running then some (t.readReg r) else none

/-- The byte of memory an executed instruction leaves, if it completed. -/
def leftByte (a : Nat) (o : Result) : Option Byte :=
  (next? o).bind fun t => if t.run = .running then some (t.mem.read a) else none

theorem test_nop_advances : left .pc (exec .nop (ref 0 0 0)) = some 0x104 := by decide -- V-NOP-1
theorem test_add_wraps : left (.r 3) (exec (.add (.r 3) (.r 1) (.r 2)) (ref 0xFFFFFFFF 1 9)) = some 0 := by decide -- V-ADD-2
theorem test_add_same_register : left (.r 1) (exec (.add (.r 1) (.r 1) (.r 1)) (ref 3 0 0)) = some 6 := by decide -- V-ADD-4
theorem test_add_pc_self_loop : left .pc (exec (.add .pc .pc (.r 1)) (ref 0xFFFFFFFC 0 0)) = some 0x100 := by decide -- V-SEQ-7
theorem test_sub_borrows : left (.r 3) (exec (.sub (.r 3) (.r 1) (.r 2)) (ref 0 1 0)) = some 0xFFFFFFFF := by decide -- V-SUB-1
theorem test_sub_no_trap : left (.r 3) (exec (.sub (.r 3) (.r 1) (.r 2)) (ref 0x80000000 1 0)) = some 0x7FFFFFFF := by decide -- V-SUB-2
theorem test_and : left (.r 3) (exec (.and (.r 3) (.r 1) (.r 2)) (ref 0xF0F0F0F0 0xFF00FF00 0)) = some 0xF000F000 := by decide -- V-AND-1
theorem test_orr : left (.r 3) (exec (.orr (.r 3) (.r 1) (.r 2)) (ref 0xF0F0F0F0 0xFF00FF00 0)) = some 0xFFF0FFF0 := by decide -- V-ORR-1
theorem test_xor : left (.r 3) (exec (.xor (.r 3) (.r 1) (.r 2)) (ref 0xF0F0F0F0 0xFF00FF00 0)) = some 0x0FF00FF0 := by decide -- V-XOR-1
theorem test_xor_pc_jumps_to_zero : left .pc (exec (.xor .pc .pc .pc) (ref 0 0 0)) = some 0 := by decide -- V-XOR-3
theorem test_not : left (.r 3) (exec (.not (.r 3) (.r 1)) (ref 0x12345678 0 0)) = some 0xEDCBA987 := by decide -- V-NOT-1
theorem test_lsh_left_31 : left (.r 3) (exec (.lsh (.r 3) (.r 1) (.r 2)) (ref 0x80000001 31 0)) = some 0x80000000 := by decide -- V-LSH-3
theorem test_lsh_right_31 : left (.r 3) (exec (.lsh (.r 3) (.r 1) (.r 2)) (ref 0x80000001 0xFFFFFFE1 0)) = some 1 := by decide -- V-LSH-5
theorem test_ash_right_signs : left (.r 3) (exec (.ash (.r 3) (.r 1) (.r 2)) (ref 0xFFFFFFF0 0xFFFFFFFE 0)) = some 0xFFFFFFFC := by decide -- V-ASH-4
theorem test_ash_left_wraps : left (.r 3) (exec (.ash (.r 3) (.r 1) (.r 2)) (ref 0x40000000 1 0)) = some 0x80000000 := by decide -- V-ASH-6
theorem test_tcu_unsigned : left (.r 3) (exec (.tcu (.r 3) (.r 1) (.r 2)) (ref 0xFFFFFFFF 1 0)) = some 1 := by decide -- V-TCU-4
theorem test_tcu_less : left (.r 3) (exec (.tcu (.r 3) (.r 1) (.r 2)) (ref 3 5 0)) = some 0xFFFFFFFF := by decide -- V-TCU-2
theorem test_tcs_signed : left (.r 3) (exec (.tcs (.r 3) (.r 1) (.r 2)) (ref 0x80000000 0x7FFFFFFF 0)) = some 0xFFFFFFFF := by decide -- V-TCS-2
theorem test_tcs_pc : left .pc (exec (.tcs .pc (.r 1) (.r 2)) (ref 2 1 0)) = some 1 := by decide -- V-TCS-5
theorem test_set_any_constant : left (.r 1) (exec (.set (.r 1) 0x12348765) (ref 0 0 0)) = some 0x12348765 := by decide -- R54
theorem test_set_pc : left .pc (exec (.set .pc 0x40) (ref 0 0 0)) = some 0x40 := by decide -- V-SET-5
theorem test_mov_pc_jumps : left .pc (exec (.mov .pc (.r 1)) (ref 100 0 0)) = some 100 := by decide -- V-MOV-2
theorem test_mov_reads_next_address : left (.r 1) (exec (.mov (.r 1) .pc) (ref 0 0 0)) = some 0x104 := by decide -- V-SEQ-6

/-- Bytes `11 22 33 44 55` from 0x10 and `9C` at 0x20. -/
def withBytes (s : State) : State :=
  { s with mem := [(0x10, 0x11), (0x11, 0x22), (0x12, 0x33), (0x13, 0x44), (0x14, 0x55), (0x20, 0x9C)] }

theorem test_ldw_little_endian :
    left (.r 2) (exec (.ldw (.r 2) (.r 1)) (withBytes (ref 0x10 0 0))) = some 0x44332211 := by decide -- V-LDW-1
theorem test_ldw_misaligned :
    left (.r 2) (exec (.ldw (.r 2) (.r 1)) (withBytes (ref 0x11 0 0))) = some 0x55443322 := by decide -- V-LDW-2
theorem test_stw_third_byte : leftByte 7 (exec (.stw (.r 1) (.r 2)) (ref 5 0xAABBCCDD 0)) = some 0xBB := by decide -- V-STW-1
theorem test_stw_pc_keeps_advance : left .pc (exec (.stw .pc (.r 1)) (ref 0x12345678 0 0)) = some 0x104 := by decide -- V-SEQ-9
theorem test_ldb_and_merge :
    left (.r 2) (exec (.ldb (.r 2) (.r 1)) (withBytes (ref 0x20 0xFFFFFF0F 0))) = some 0x0C := by decide -- V-LDB-1
theorem test_ldb_overwrite :
    left (.r 2) (exec (.ldb (.r 2) (.r 1)) (withBytes (sample .fault .overwrite 0x20 0xFFFFFF0F 0))) = some 0x9C := by decide -- V-LDB-1
theorem test_stb_low_byte : leftByte 0x103 (exec (.stb (.r 1) (.r 2)) (ref 0x103 0x5678 0)) = some 0x78 := by decide -- V-STB-1
theorem test_stb_zero_removes_entry : -- the canonical form: a zero byte is not listed (R28)
    (next? (exec (.stb (.r 1) (.r 3)) (withBytes (ref 0x20 0 0)))).map (fun t => t.mem.length) = some 5 := by decide

/-! ### Faults -/

theorem test_ldw_out_of_bounds : -- V-LDW-4: R2 unchanged, pc = a
    next? (exec (.ldw (.r 2) (.r 1)) (ref 639997 7 0)) =
      some { ref 639997 7 0 with run := .faulted ⟨.outOfBounds .load 639997 .word, 0x100⟩ } := by decide
theorem test_stb_out_of_bounds : -- V-STB-2
    next? (exec (.stb (.r 1) (.r 2)) (ref 640000 7 0)) =
      some { ref 640000 7 0 with run := .faulted ⟨.outOfBounds .store 640000 .byte, 0x100⟩ } := by decide
theorem test_shift_fault : -- V-LSH-8
    next? (exec (.lsh (.r 3) (.r 1) (.r 2)) (ref 5 0x80000000 0)) =
      some { ref 5 0x80000000 0 with run := .faulted ⟨.shiftOutOfRange .lsh 0x80000000, 0x100⟩ } := by decide
theorem test_shift_saturate : -- V-ASH-8
    left (.r 3) (exec (.ash (.r 3) (.r 1) (.r 2)) (sample .saturate .andMerge 0x80000000 0xFFFFFFE0 0)) =
      some 0xFFFFFFFF := by decide
theorem test_shift_mask5 : -- V-LSH-8
    left (.r 3) (exec (.lsh (.r 3) (.r 1) (.r 2)) (sample .mask5 .andMerge 5 0x80000000 0)) = some 5 := by decide
theorem test_fetch_out_of_bounds : -- V-SEQ-2
    next? (step { ref 0 0 0 with pc := 639997 }) =
      some { ref 0 0 0 with pc := 639997, run := .faulted ⟨.outOfBounds .fetch 639997 .word, 639997⟩ } := by decide
theorem test_fetch_at_last_word : left .pc (step { ref 0 0 0 with pc := 639996 }) = some 640000 := by decide -- V-SEQ-1
theorem test_invalid_encoding : -- V-SEQ-4
    next? (step (State.reset.withFetchWord 32 0x11)) =
      some { State.reset.withFetchWord 32 0x11 with run := .faulted ⟨.invalidEncoding 0x11, 0⟩ } := by decide
theorem test_no_step_from_faulted : -- V-SEQ-10
    next? (step { ref 0 0 0 with run := .faulted ⟨.invalidEncoding 0x11, 0x100⟩ }) = none := by decide
theorem test_fault_codes : -- R151
    (FaultCause.outOfBounds .store 0 .word).code = 1 ∧ (FaultCause.invalidEncoding 0).code = 2 ∧
      (FaultCause.shiftOutOfRange .ash 0).code = 3 ∧ AccessKind.store.code = 2 := by decide

/-! ### The host's placement and view -/

theorem test_reset_runs_placed_word : left (.r 1) (step (State.reset.withFetchWord 32 0x0005010B)) = some 5 := by decide -- P1
theorem test_image_is_truncated : -- R184
    (State.launch { Config.reference with memSize := 4 } [1, 2, 3, 4, 5]).mem = [(0, 1), (1, 2), (2, 3), (3, 4)] := by decide
theorem test_report : (State.reset.withFetchWord 32 0x0005010B).report = .executed (.set (.r 1) 5) := by decide -- R76
theorem test_registers_in_order : -- R21
    (State.construct { Config.reference with nreg := 2 }).registersInOrder = [(.r 0, 0), (.r 1, 0), (.pc, 0)] := by decide

theorem test_written_form : -- R62
    writtenForm (.set (.r 6) 0xFFFFFFE4) = some "Set(R6, -28)" ∧ writtenForm (.add .pc .pc (.r 6)) = some "Add(PC, PC, R6)" ∧
      writtenForm .nop = some "Nop" := by decide

/-! ### Witnesses: concrete states and operands that meet the hypotheses of each statement -/

theorem exists_next_of {o : Result} {p : State → Bool} (h : (next? o).any p = true) :
    ∃ t, o = .next t ∧ p t = true := by
  cases o with
  | next t => exact ⟨t, rfl, h⟩
  | fault r => exact absurd h (by simp [next?])
  | refused r => exact absurd h (by simp [next?])

theorem sample_inv (mode : ShiftOor) (ldb : LdbMode) (r1 r2 r3 : Word) : (sample mode ldb r1 r2 r3).Inv where
  cfg := by
    show 4 ≤ 640000 ∧ 640000 ≤ 2 ^ 32 ∧ 1 ≤ 32 ∧ 32 ≤ 255
    decide
  registers := rfl
  memory := Memory.wf_nil
  memoryBelow := by simp [sample]
  fault := by simp [sample]

/-- A running core with `w` at its pc, 0x100. -/
def fetching (w : Nat) (r1 r2 r3 : Word) : State := (ref r1 r2 r3).withFetchWord 32 w

theorem witness_DecodeOfEncodeIsIdentity :
    (Instr.set .pc 0xFFFF8000).wellFormed 255 = true ∧ (Instr.add (.r 254) .pc (.r 0)).wellFormed 255 = true := by decide
theorem witness_EncodeOfDecodeClearsIgnoredBits :
    decodeSRE 32 0xFF010306 = some (.not (.r 3) (.r 1)) ∧ decodeSRE 32 0xFFFF200B = some (.set .pc 0xFFFFFFFF) := by decide
theorem witness_IgnoredBitsDoNotMatter :
    (0xFF010306 : Word) &&& usedBits (0xFF010306 % 2 ^ 8) = 0x00010306 &&& usedBits (0xFF010306 % 2 ^ 8) := by decide
theorem witness_LaunchMeetsInvariant : Config.wf { Config.reference with memSize := 4, nreg := 255 } := by decide
theorem witness_StepKeepsInvariant :
    (sample .fault .andMerge 1 2 3).Inv ∧ ∃ t, step (sample .fault .andMerge 1 2 3) = .next t :=
  ⟨sample_inv _ _ _ _ _, (exists_next_of (p := fun _ => true) (by decide)).imp fun _ h => h.1⟩
theorem witness_ConstructionZeroesEverything : (Reg.r 31).existsIn Config.reference.nreg = true := by decide

theorem fetches_add : Fetches (fetching 0x02010301 5 7 0) (.add (.r 3) (.r 1) (.r 2)) := ⟨rfl, by decide, by decide⟩
theorem fetches_jump : Fetches (fetching 0x0001200C 5 7 0) (.mov .pc (.r 1)) := ⟨rfl, by decide, by decide⟩
theorem witness_StepRunsDecodedInstruction :
    Fetches (fetching 0x02010301 5 7 0) (.add (.r 3) (.r 1) (.r 2)) ∧
    Fetches ((({ ref 0 0 0 with pc := 639996 } : State)).withFetchWord 32 0) .nop ∧
    referenceDecoder 32 0x02010301 = some ⟨.add (.r 3) (.r 1) (.r 2), rfl⟩ :=
  ⟨fetches_add, ⟨rfl, by decide, by decide⟩, by decide⟩
theorem witness_PlacedWordRunsNext :
    ({ ref 0 0 0 with pc := 639996 } : State).pc.toNat + 4 ≤ (ref 0 0 0).cfg.memSize ∧
    decodeSRE 32 (BitVec.ofNat 32 0x0005010B) = some (.set (.r 1) 5) := by decide
theorem witness_FetchOutsideMemoryFaults :
    (ref 0 0 0).run = .running ∧ (ref 0 0 0).cfg.memSize < (639997 : Word).toNat + 4 ∧
    (ref 0 0 0).cfg.memSize < (0xFFFFFFFC : Word).toNat + 4 := by decide
theorem witness_UndecodedWordFaults :
    (fetching 0x11 0 0 0).run = .running ∧ (fetching 0x11 0 0 0).pc.toNat + 4 ≤ (fetching 0x11 0 0 0).cfg.memSize ∧
    referenceDecoder 32 (littleEndianWord (fetching 0x11 0 0 0).mem (fetching 0x11 0 0 0).pc.toNat) = none := by decide
theorem witness_StepsExactlyWhileRunning :
    (ref 0 0 0).run = .running ∧
    ({ ref 0 0 0 with run := .faulted ⟨.invalidEncoding 0x11, 0x100⟩ } : State).run =
      .faulted ⟨.invalidEncoding 0x11, 0x100⟩ := by decide
/-- One faulting step of each of the three priorities of R154, and for each instruction that can fault. -/
theorem witness_FaultRollsBackWholeStep_and_FaultPriorityOrder :
    (next? (step { ref 0 0 0 with pc := 639997 })).any
      (fun t => decide (t.run = .faulted ⟨.outOfBounds .fetch 639997 .word, 639997⟩)) = true ∧
    (next? (step (fetching 0x11 0 0 0))).any
      (fun t => decide (t.run = .faulted ⟨.invalidEncoding 0x11, 0x100⟩)) = true ∧
    (next? (step (fetching 0x0001020D 639997 0 0))).any
      (fun t => decide (t.run = .faulted ⟨.outOfBounds .load 639997 .word, 0x100⟩)) = true ∧
    (next? (step (fetching 0x0001020F 640000 0 0))).any
      (fun t => decide (t.run = .faulted ⟨.outOfBounds .load 640000 .byte, 0x100⟩)) = true ∧
    (next? (step (fetching 0x0002010E 639997 0 0))).any
      (fun t => decide (t.run = .faulted ⟨.outOfBounds .store 639997 .word, 0x100⟩)) = true ∧
    (next? (step (fetching 0x00020110 640000 0 0))).any
      (fun t => decide (t.run = .faulted ⟨.outOfBounds .store 640000 .byte, 0x100⟩)) = true ∧
    (next? (step (fetching 0x02010307 1 32 0))).any
      (fun t => decide (t.run = .faulted ⟨.shiftOutOfRange .lsh 32, 0x100⟩)) = true ∧
    (next? (step (fetching 0x02010308 1 0xFFFFFFE0 0))).any
      (fun t => decide (t.run = .faulted ⟨.shiftOutOfRange .ash 0xFFFFFFE0, 0x100⟩)) = true := by decide
theorem witness_PcAfterStep_and_ReportTellsWhatStepDid :
    (Fetches (fetching 0x02010301 5 7 0) (.add (.r 3) (.r 1) (.r 2)) ∧
      (next? (step (fetching 0x02010301 5 7 0))).any (fun t => decide (t.run = .running)) = true) ∧
    (Fetches (fetching 0x0001200C 5 7 0) (.mov .pc (.r 1)) ∧
      (next? (step (fetching 0x0001200C 5 7 0))).any (fun t => decide (t.run = .running)) = true) :=
  ⟨⟨fetches_add, by decide⟩, ⟨fetches_jump, by decide⟩⟩
theorem witness_OneDestinationPerInstruction :
    ∃ t, exec (.stw (.r 1) (.r 2)) (ref 5 0xAABBCCDD 0) = .next t ∧
      decide (t.mem.read 5 ≠ (ref 5 0xAABBCCDD 0).mem.read 5) = true := exists_next_of (by decide)
/-- The first and the last byte of a word store, and the byte of a byte store. -/
theorem witness_OnlyStoresChangeMemory :
    (∃ t, step (fetching 0x0002010E 5 0xAABBCCDD 0) = .next t ∧
      decide (t.mem.read 5 ≠ (fetching 0x0002010E 5 0xAABBCCDD 0).mem.read 5 ∧
        t.mem.read 8 ≠ (fetching 0x0002010E 5 0xAABBCCDD 0).mem.read 8) = true) ∧
    (∃ t, step (fetching 0x00020110 5 0xAABBCCDD 0) = .next t ∧
      decide (t.mem.read 5 ≠ (fetching 0x00020110 5 0xAABBCCDD 0).mem.read 5) = true) :=
  ⟨exists_next_of (by decide), exists_next_of (by decide)⟩
theorem witness_RegisterInstructionsIgnoreMemory :
    (∀ rA rB, Instr.add (.r 3) (.r 1) (.r 2) ≠ .ldw rA rB ∧ Instr.add (.r 3) (.r 1) (.r 2) ≠ .ldb rA rB ∧
      Instr.add (.r 3) (.r 1) (.r 2) ≠ .stw rA rB ∧ Instr.add (.r 3) (.r 1) (.r 2) ≠ .stb rA rB) ∧
    ∃ t, exec (.add (.r 3) (.r 1) (.r 2)) (ref 1 2 3) = .next t :=
  ⟨fun _ _ => by simp, (exists_next_of (p := fun _ => true) (by decide)).imp fun _ h => h.1⟩
/-- V-SEQ-9: Stw(PC, R1), the stored word being Set(R1, 5). -/
theorem witness_StoreSeenByNextFetch :
    Fetches (fetching 0x0001200E 0x0005010B 0 0) (.stw .pc (.r 1)) ∧
    (fetching 0x0001200E 0x0005010B 0 0).operand .pc = (fetching 0x0001200E 0x0005010B 0 0).pc + 4 ∧
    ((fetching 0x0001200E 0x0005010B 0 0).operand .pc).toNat + 4 ≤ (fetching 0x0001200E 0x0005010B 0 0).cfg.memSize ∧
    decodeSRE 32 ((fetching 0x0001200E 0x0005010B 0 0).operand (.r 1)) = some (.set (.r 1) 5) :=
  ⟨⟨rfl, by decide, by decide⟩, by decide, by decide, by decide⟩
theorem witness_NamedSelfLoops :
    ((fetching 0x0100200B 0 0 0).pc = 0x100 ∧ Fetches (fetching 0x0100200B 0 0 0) (.set .pc 0x100)) ∧
    ((fetching 0x01202001 0xFFFFFFFC 0 0).pc = 0x100 ∧
      Fetches (fetching 0x01202001 0xFFFFFFFC 0 0) (.add .pc .pc (.r 1)) ∧
      (fetching 0x01202001 0xFFFFFFFC 0 0).readReg (.r 1) = 0xFFFFFFFC) :=
  ⟨⟨rfl, rfl, by decide, by decide⟩, rfl, ⟨rfl, by decide, by decide⟩, by decide⟩
theorem witness_SelfLoopRepeatsForever : HoldsSelfLoop 0x100 (fetching 0x0100200B 0 0 0) :=
  ⟨rfl, .set .pc 0x100, (fetching 0x0100200B 0 0 0).advance.writeReg .pc 0x100, witness_NamedSelfLoops.1.2, rfl, rfl, rfl, rfl⟩
/-- Add(PC, PC, R1) at 0x100 with x[R1] = −4: the first visit, at 0 steps, is the end; the visit after one step is not. -/
theorem witness_StopEndIsTheFirstVisit :
    EndsAtStop 0x100 0 (fetching 0x01202001 0xFFFFFFFC 0 0) (fetching 0x01202001 0xFFFFFFFC 0 0) ∧
    HoldsSelfLoop 0x100 (fetching 0x01202001 0xFFFFFFFC 0 0) ∧
    ¬ ∃ t, EndsAtStop 0x100 1 (fetching 0x01202001 0xFFFFFFFC 0 0) t :=
  ⟨⟨rfl, ⟨rfl, rfl⟩, fun _ _ h => absurd h (Nat.not_lt_zero _)⟩,
    ⟨rfl, .add .pc .pc (.r 1), (fetching 0x01202001 0xFFFFFFFC 0 0).advance.writeReg .pc 0x100,
      witness_NamedSelfLoops.2.2.1, rfl, rfl, rfl, rfl⟩,
    fun ⟨_, h⟩ => h.first 0 _ Nat.one_pos rfl ⟨rfl, rfl⟩⟩
/-- A stop address reached only after a step: Add at 0x100, STOP_PC = 0x104. -/
theorem witness_StopEndIsTheFirstVisit_later :
    ∃ t, core.run 1 (fetching 0x02010301 5 7 0) = .next t ∧ AtStop 0x104 t := ⟨_, rfl, rfl, rfl⟩
/-- With NREG = 32, R31 is an identifier and R32 is none; PC may stand in every position. -/
theorem witness_DecodedOperandsAreIdentifiers :
    (DecodedInstruction.ofInstr 32 (.add .pc .pc .pc)).isSome = true ∧
    (DecodedInstruction.ofInstr 32 (.mov (.r 31) .pc)).isSome = true ∧
    (DecodedInstruction.ofInstr 32 (.mov (.r 32) .pc)).isSome = false ∧
    (∃ t, stepWith referenceDecoder (fetching 0x02010301 5 7 0) = .next t ∧ decide (t.run = .running) = true) :=
  ⟨by decide, by decide, by decide, exists_next_of (by decide)⟩
/-- Both clauses at once: MEMSIZE = 6, k = 1, so that pc = 4 is the first multiple of 4 above MEMSIZE − 4. -/
theorem witness_EmptyMemoryRunsNops :
    Config.wf { Config.reference with memSize := 6 } ∧ 4 * 1 ≤ 6 ∧ 6 < 4 * 1 + 4 ∧ 4 * 1 < 2 ^ 32 := by decide

/-- What every statement about an instruction's result asks of state and operands: the invariant, and registers that exist. -/
abbrev Meets (i : Instr) (s : State) : Prop := s.Inv ∧ i.registersExist s.cfg.nreg = true

theorem meets {i : Instr} {mode : ShiftOor} {ldb : LdbMode} {r1 r2 r3 : Word} (h : i.registersExist 32 = true) :
    Meets i (sample mode ldb r1 r2 r3) := ⟨sample_inv _ _ _ _ _, h⟩

theorem witness_AddWritesWrappedSum : Meets (.add (.r 31) (.r 1) .pc) (ref 1 2 3) := meets (by decide)
theorem witness_SubWritesWrappedDifference : Meets (.sub .pc (.r 1) (.r 2)) (ref 1 2 3) := meets (by decide)
theorem witness_LogicActsBitByBit : Meets (.and (.r 0) (.r 1) .pc) (ref 1 2 3) := meets (by decide)
theorem witness_SetWritesConstant : Meets (.set .pc 0x12348765) (ref 1 2 3) := meets (by decide)
theorem witness_MovCopiesRegister : Meets (.mov .pc .pc) (ref 1 2 3) := meets (by decide)

/-- Each clause at its boundary amounts: 0 and 31; −31 and −1; 32, −32 and −2^31 under `fault` (R2 holds the amount). -/
theorem witness_LshShiftsLogically :
    (Meets (.lsh .pc (.r 1) (.r 2)) (ref 1 0 0) ∧ 0 ≤ ((ref 1 0 0).operand (.r 2)).toInt ∧
      ((ref 1 0 0).operand (.r 2)).toInt ≤ 31) ∧
    (Meets (.lsh (.r 3) (.r 1) (.r 2)) (ref 1 31 0) ∧ 0 ≤ ((ref 1 31 0).operand (.r 2)).toInt ∧
      ((ref 1 31 0).operand (.r 2)).toInt ≤ 31) ∧
    (Meets (.lsh (.r 3) (.r 1) (.r 2)) (ref 1 0xFFFFFFE1 0) ∧ -31 ≤ ((ref 1 0xFFFFFFE1 0).operand (.r 2)).toInt ∧
      ((ref 1 0xFFFFFFE1 0).operand (.r 2)).toInt < 0) ∧
    (Meets (.lsh (.r 3) (.r 1) (.r 2)) (ref 1 0xFFFFFFFF 0) ∧ -31 ≤ ((ref 1 0xFFFFFFFF 0).operand (.r 2)).toInt ∧
      ((ref 1 0xFFFFFFFF 0).operand (.r 2)).toInt < 0) ∧
    (Meets (.lsh (.r 3) (.r 1) (.r 2)) (ref 1 32 0) ∧ 32 ≤ ((ref 1 32 0).operand (.r 2)).toInt ∧
      (ref 1 32 0).cfg.shiftOor = .fault) ∧
    (Meets (.lsh (.r 3) (.r 1) (.r 2)) (ref 1 0xFFFFFFE0 0) ∧ ((ref 1 0xFFFFFFE0 0).operand (.r 2)).toInt ≤ -32 ∧
      (ref 1 0xFFFFFFE0 0).cfg.shiftOor = .fault) ∧
    (Meets (.lsh (.r 3) (.r 1) (.r 2)) (ref 1 0x80000000 0) ∧ ((ref 1 0x80000000 0).operand (.r 2)).toInt ≤ -32 ∧
      (ref 1 0x80000000 0).cfg.shiftOor = .fault) :=
  ⟨⟨meets (by decide), by decide⟩, ⟨meets (by decide), by decide⟩, ⟨meets (by decide), by decide⟩,
    ⟨meets (by decide), by decide⟩, ⟨meets (by decide), by decide⟩, ⟨meets (by decide), by decide⟩,
    ⟨meets (by decide), by decide⟩⟩

/-- Each clause of the two Ash statements at its boundary amounts. -/
theorem witness_AshShiftsArithmetically_and_AshLeftIsLshAshRightCopiesSign :
    (Meets (.ash .pc (.r 1) (.r 2)) (ref 1 0 0) ∧ 0 ≤ ((ref 1 0 0).operand (.r 2)).toInt ∧
      ((ref 1 0 0).operand (.r 2)).toInt ≤ 31) ∧
    (Meets (.ash (.r 3) (.r 1) (.r 2)) (ref 1 31 0) ∧ 0 ≤ ((ref 1 31 0).operand (.r 2)).toInt ∧
      ((ref 1 31 0).operand (.r 2)).toInt ≤ 31) ∧
    (Meets (.ash (.r 3) (.r 1) (.r 2)) (ref 1 0xFFFFFFE1 0) ∧ -31 ≤ ((ref 1 0xFFFFFFE1 0).operand (.r 2)).toInt ∧
      ((ref 1 0xFFFFFFE1 0).operand (.r 2)).toInt < 0) ∧
    (Meets (.ash (.r 3) (.r 1) (.r 2)) (ref 1 0xFFFFFFFF 0) ∧ -31 ≤ ((ref 1 0xFFFFFFFF 0).operand (.r 2)).toInt ∧
      ((ref 1 0xFFFFFFFF 0).operand (.r 2)).toInt < 0) ∧
    (Meets (.ash (.r 3) (.r 1) (.r 2)) (ref 1 32 0) ∧ 32 ≤ ((ref 1 32 0).operand (.r 2)).toInt ∧
      (ref 1 32 0).cfg.shiftOor = .fault) ∧
    (Meets (.ash (.r 3) (.r 1) (.r 2)) (ref 1 0xFFFFFFE0 0) ∧ ((ref 1 0xFFFFFFE0 0).operand (.r 2)).toInt ≤ -32 ∧
      (ref 1 0xFFFFFFE0 0).cfg.shiftOor = .fault) :=
  ⟨⟨meets (by decide), by decide⟩, ⟨meets (by decide), by decide⟩, ⟨meets (by decide), by decide⟩,
    ⟨meets (by decide), by decide⟩, ⟨meets (by decide), by decide⟩, ⟨meets (by decide), by decide⟩⟩

/-- Both directions at their boundary amounts, under each setting of SHIFT_OOR. -/
theorem witness_OutOfRangeShiftTable (mode : ShiftOor) :
    (Meets (.lsh (.r 3) (.r 1) (.r 2)) (sample mode .andMerge 1 32 0) ∧
      32 ≤ ((sample mode .andMerge 1 32 0).operand (.r 2)).toInt ∧ (sample mode .andMerge 1 32 0).cfg.shiftOor = mode) ∧
    (Meets (.lsh (.r 3) (.r 1) (.r 2)) (sample mode .andMerge 1 0xFFFFFFE0 0) ∧
      ((sample mode .andMerge 1 0xFFFFFFE0 0).operand (.r 2)).toInt ≤ -32 ∧
      (sample mode .andMerge 1 0xFFFFFFE0 0).cfg.shiftOor = mode) ∧
    (Meets (.lsh .pc (.r 1) (.r 2)) (sample mode .andMerge 1 0x80000000 0) ∧
      ((sample mode .andMerge 1 0x80000000 0).operand (.r 2)).toInt ≤ -32 ∧
      (sample mode .andMerge 1 0x80000000 0).cfg.shiftOor = mode) :=
  ⟨⟨meets (by decide), by cases mode <;> decide⟩, ⟨meets (by decide), by cases mode <;> decide⟩,
    ⟨meets (by decide), by cases mode <;> decide⟩⟩

/-- The three unsigned orders. -/
theorem witness_TcuComparesUnsigned :
    (Meets (.tcu .pc (.r 1) (.r 2)) (ref 5 3 0) ∧ ((ref 5 3 0).operand (.r 2)).toNat < ((ref 5 3 0).operand (.r 1)).toNat) ∧
    (Meets (.tcu (.r 3) (.r 1) (.r 2)) (ref 0 0xFFFFFFFF 0) ∧
      ((ref 0 0xFFFFFFFF 0).operand (.r 1)).toNat < ((ref 0 0xFFFFFFFF 0).operand (.r 2)).toNat) ∧
    (Meets (.tcu (.r 3) (.r 1) (.r 2)) (ref 4 4 0) ∧ (ref 4 4 0).operand (.r 1) = (ref 4 4 0).operand (.r 2)) :=
  ⟨⟨meets (by decide), by decide⟩, ⟨meets (by decide), by decide⟩, ⟨meets (by decide), by decide⟩⟩

/-- The three signed orders. -/
theorem witness_TcsComparesSigned :
    (Meets (.tcs .pc (.r 1) (.r 2)) (ref 0x7FFFFFFF 0x80000000 0) ∧
      ((ref 0x7FFFFFFF 0x80000000 0).operand (.r 2)).toInt < ((ref 0x7FFFFFFF 0x80000000 0).operand (.r 1)).toInt) ∧
    (Meets (.tcs (.r 3) (.r 1) (.r 2)) (ref 0xFFFFFFFF 1 0) ∧
      ((ref 0xFFFFFFFF 1 0).operand (.r 1)).toInt < ((ref 0xFFFFFFFF 1 0).operand (.r 2)).toInt) ∧
    (Meets (.tcs (.r 3) (.r 1) (.r 2)) (ref 4 4 0) ∧ (ref 4 4 0).operand (.r 1) = (ref 4 4 0).operand (.r 2)) :=
  ⟨⟨meets (by decide), by decide⟩, ⟨meets (by decide), by decide⟩, ⟨meets (by decide), by decide⟩⟩

/-- The last legal and the first illegal address of a word load. -/
theorem witness_LdwLoadsWord :
    (Meets (.ldw .pc (.r 1)) (ref 639996 0 0) ∧ ((ref 639996 0 0).operand (.r 1)).toNat + 4 ≤ (ref 639996 0 0).cfg.memSize) ∧
    (Meets (.ldw (.r 2) (.r 1)) (ref 639997 0 0) ∧ (ref 639997 0 0).cfg.memSize < ((ref 639997 0 0).operand (.r 1)).toNat + 4) :=
  ⟨⟨meets (by decide), by decide⟩, ⟨meets (by decide), by decide⟩⟩

/-- The last legal and the first illegal address of a word store, and W8's misaligned round trip. -/
theorem witness_StwStoresWord :
    (Meets (.stw (.r 1) .pc) (ref 639996 0 0) ∧ ((ref 639996 0 0).operand (.r 1)).toNat + 4 ≤ (ref 639996 0 0).cfg.memSize) ∧
    (Meets (.stw (.r 1) .pc) (ref 639997 0 0) ∧ (ref 639997 0 0).cfg.memSize < ((ref 639997 0 0).operand (.r 1)).toNat + 4) ∧
    (Meets (.stw (.r 1) (.r 2)) (ref 0x1001 0xCAFEF00D 0) ∧
      ((ref 0x1001 0xCAFEF00D 0).operand (.r 1)).toNat + 4 ≤ (ref 0x1001 0xCAFEF00D 0).cfg.memSize ∧
      (Reg.r 3).existsIn (ref 0x1001 0xCAFEF00D 0).cfg.nreg = true ∧
      ∃ t, exec (.stw (.r 1) (.r 2)) (ref 0x1001 0xCAFEF00D 0) = .next t ∧
        decide (t.operand (.r 1) = (ref 0x1001 0xCAFEF00D 0).operand (.r 1)) = true) :=
  ⟨⟨meets (by decide), by decide⟩, ⟨meets (by decide), by decide⟩, meets (by decide), by decide, by decide,
    exists_next_of (by decide)⟩

/-- The last legal address in each LDB_MODE, and the first illegal one. -/
theorem witness_LdbCombinesByte :
    (Meets (.ldb (.r 2) (.r 1)) (ref 639999 0 0) ∧ ((ref 639999 0 0).operand (.r 1)).toNat + 1 ≤ (ref 639999 0 0).cfg.memSize ∧
      (ref 639999 0 0).cfg.ldbMode = .andMerge) ∧
    (Meets (.ldb (.r 2) (.r 1)) (sample .fault .overwrite 639999 0 0) ∧
      ((sample .fault .overwrite 639999 0 0).operand (.r 1)).toNat + 1 ≤ (sample .fault .overwrite 639999 0 0).cfg.memSize ∧
      (sample .fault .overwrite 639999 0 0).cfg.ldbMode = .overwrite) ∧
    (Meets (.ldb .pc (.r 1)) (ref 640000 0 0) ∧ (ref 640000 0 0).cfg.memSize < ((ref 640000 0 0).operand (.r 1)).toNat + 1) :=
  ⟨⟨meets (by decide), by decide⟩, ⟨meets (by decide), by decide⟩, ⟨meets (by decide), by decide⟩⟩

/-- The last legal and the first illegal address of a byte store. -/
theorem witness_StbStoresLowByte :
    (Meets (.stb (.r 1) .pc) (ref 639999 0 0) ∧ ((ref 639999 0 0).operand (.r 1)).toNat + 1 ≤ (ref 639999 0 0).cfg.memSize) ∧
    (Meets (.stb (.r 1) .pc) (ref 640000 0 0) ∧ (ref 640000 0 0).cfg.memSize < ((ref 640000 0 0).operand (.r 1)).toNat + 1) :=
  ⟨⟨meets (by decide), by decide⟩, ⟨meets (by decide), by decide⟩⟩

theorem witness_BytesOfAWordInMemory : -- R39's example
    ((Memory.writeWord [] 8 0x12345678).read 11) = 0x12 ∧ (3 : Nat) < 4 := by decide

end Sys2Proof.Tests
end

namespace Sys2Proof.Machine

/-! ### The sequencer: what a step leaves in pc (40_sequencer.md R77, R88) -/

/-- A fetched instruction is the one the step executes (R71). -/
theorem step_of_fetches {s : State} {i : Instr} (hf : Fetches s i) : step s = exec i s := by
  have hd : fetchDecode referenceDecoder s = .ok i := (fetchDecode_reference_eq_ok hf.running).2 hf
  rw [step, stepWith, hf.running, hd]

/-- A fetched instruction's step has one of the effects of that instruction. -/
theorem effect_of_step {s t : State} {i : Instr} (hf : Fetches s i) (h : step s = .next t) : Effect s i t :=
  effect_of_exec (step_of_fetches hf ▸ h)

/-- An instruction that completes and does not write PC leaves pc as advanced. -/
theorem Effect.pc_of_destination_ne_pc {s t : State} {i : Instr} (he : Effect s i t) (hr : t.run = .running)
    (hd : i.destination ≠ some .pc) : t.pc = s.pc + 4 := by
  cases he with
  | advance => exact s.advance_pc
  | @write _ rA hw v =>
    have hne : Reg.pc ≠ rA := fun e => hd (e ▸ hw)
    exact State.readReg_writeReg_of_ne (s := s.advance) hne v
  | storeWord _ => exact s.advance_pc
  | storeByte _ => exact s.advance_pc
  | fault _ => simp at hr

/-- An instruction with destination PC that completes has written pc after the advance, and nothing else. -/
theorem Effect.eq_writeReg_pc {s t : State} {i : Instr} (he : Effect s i t) (hr : t.run = .running)
    (hd : i.destination = some .pc) : ∃ v, t = s.advance.writeReg .pc v := by
  cases he with
  | advance => simp [Instr.destination] at hd
  | write hw v =>
    obtain rfl := Option.some.inj (hw.symm.trans hd)
    exact ⟨v, rfl⟩
  | storeWord _ => simp [Instr.destination] at hd
  | storeByte _ => simp [Instr.destination] at hd
  | fault _ => simp at hr

/-- From a Running core, an instruction that ends Faulted has taken a fault and done nothing else (R152). -/
theorem Effect.eq_raise_of_faulted {s t : State} {i : Instr} {record : FaultRecord} (he : Effect s i t)
    (hs : s.run = .running) (hr : t.run = .faulted record) : ∃ c, t = s.raise c := by
  cases he with
  | advance => simp [hs] at hr
  | write _ _ => simp [hs] at hr
  | storeWord _ => simp [hs] at hr
  | storeByte _ => simp [hs] at hr
  | @fault _ c _ => exact ⟨c, rfl⟩

/-- A step that ends Faulted is its fault taken from the state before it, whichever stage raised the fault (R152). -/
theorem eq_raise_of_step_faulted {s t : State} {record : FaultRecord} (h : step s = .next t)
    (hr : t.run = .faulted record) : ∃ c, t = s.raise c := by
  obtain ⟨hs, ⟨c, -, ht⟩ | ⟨i, -, hi⟩⟩ := stepWith_cases h
  · exact ⟨c, ht⟩
  · exact (effect_of_exec hi).eq_raise_of_faulted hs hr

/-- Settles O18, by cases on the instruction's effect. -/
theorem pcAfterStep : Obligations.PcAfterStep := by
  refine ⟨fun s t i hf h hr hd => ?_, fun s t i hf h hr hd => ?_, fun s t record h hr => ?_⟩
  · exact (effect_of_step hf h).pc_of_destination_ne_pc hr hd
  · obtain ⟨v, rfl⟩ := (effect_of_step hf h).eq_writeReg_pc hr hd
    exact writesResult_of_exec trivial (step_of_fetches hf ▸ h)
  · obtain ⟨c, rfl⟩ := eq_raise_of_step_faulted h hr
    exact s.raise_pc c

theorem opField_or (w v : Word) : opField (w ||| v) = opField w ||| opField v := BitVec.extractLsb'_or

/-- Bits shifted to position 8 or above are outside the opcode. -/
theorem opField_shiftLeft {n : Nat} (hn : 8 ≤ n) (w : Word) : opField (w <<< n) = 0 := by
  ext k hk
  have : k < n := by omega
  simp [opField, this]

/-- Opcode 0x00 decodes to Nop whatever the other bits hold (R57, R59). -/
theorem decodeSRE_of_opField_zero (nreg : Nat) {w : Word} (h : opField w = 0) : decodeSRE nreg w = some .nop := by
  rw [decodeSRE, decodeNamed, h]
  rfl

/-- Settles O29: what is shifted above the opcode never reaches it, and the execution is the bare advance. -/
theorem nopOnlyAdvances : Obligations.NopOnlyAdvances := by
  refine ⟨fun nreg x => decodeSRE_of_opField_zero nreg ?_, exec_nop⟩
  rw [opField_or, opField_shiftLeft (Nat.le_refl 8)]
  rfl

end Sys2Proof.Machine

namespace Sys2Proof.Machine

/-! ### The encoding lines of the register shapes (30_encoding.md R56, R58) -/

/-- R56 spells a word by shifting its fields to their places; the encoder packs the same four bytes. -/
theorem or_shiftLeft_eq_pack (c b a o : Byte) :
    o.setWidth 32 ||| a.setWidth 32 <<< 8 ||| b.setWidth 32 <<< 16 ||| c.setWidth 32 <<< 24 = c ++ b ++ a ++ o := by
  ext k hk
  simp only [BitVec.getElem_or, BitVec.getElem_shiftLeft, BitVec.getElem_setWidth]
  grind

/-- The code of an existing register fits its byte, since NREG ≤ 255 (R58). -/
theorem registerCode_eq_setWidth_code {nreg : Nat} (hn : nreg ≤ 255) {r : Reg} (hr : r.existsIn nreg = true) :
    registerCode nreg r = (r.code nreg).setWidth 32 := by
  have ofNat_eq {n : Nat} (h : n ≤ 255) : BitVec.ofNat 32 n = (BitVec.ofNat 8 n).setWidth 32 := by bv_omega
  cases r with
  | r n =>
    have h : n < nreg := of_decide_eq_true hr
    exact ofNat_eq (n := n) (by omega)
  | pc => exact ofNat_eq hn

/-- An opcode that is decoded in shape RRR has the RRR encoding line. -/
theorem spelledRRR_of_decodeNamed {o : Byte} {mk : Reg → Reg → Reg → Instr}
    (h : ∀ nreg w, opField w = o → decodeNamed nreg w = decodeRRR nreg mk w) : SpelledRRR (o.setWidth 32) mk := by
  intro nreg a b c hn ha hb hc
  rw [registerCode_eq_setWidth_code hn ha, registerCode_eq_setWidth_code hn hb, registerCode_eq_setWidth_code hn hc,
    or_shiftLeft_eq_pack, decodeSRE, h _ _ (opField_pack _ _ _ _)]
  exact congrArg Except.toOption (decodeRRR_pack hn ha hb hc mk o)

/-- An opcode that is decoded in shape RR has the RR encoding line, whatever bits 31:24 hold (R59). -/
theorem spelledRR_of_decodeNamed {o : Byte} {mk : Reg → Reg → Instr}
    (h : ∀ nreg w, opField w = o → decodeNamed nreg w = decodeRR nreg mk w) : SpelledRR (o.setWidth 32) mk := by
  intro nreg a b x hn ha hb
  rw [registerCode_eq_setWidth_code hn ha, registerCode_eq_setWidth_code hn hb, or_shiftLeft_eq_pack, decodeSRE,
    h _ _ (opField_pack _ _ _ _)]
  exact congrArg Except.toOption (decodeRR_pack hn ha hb mk x o)

theorem spelledRRR_add : SpelledRRR 0x01 .add :=
  spelledRRR_of_decodeNamed (o := 0x01) fun nreg w h => by rw [decodeNamed, h]; rfl

theorem spelledRRR_sub : SpelledRRR 0x02 .sub :=
  spelledRRR_of_decodeNamed (o := 0x02) fun nreg w h => by rw [decodeNamed, h]; rfl

theorem spelledRRR_and : SpelledRRR 0x03 .and :=
  spelledRRR_of_decodeNamed (o := 0x03) fun nreg w h => by rw [decodeNamed, h]; rfl

theorem spelledRRR_orr : SpelledRRR 0x04 .orr :=
  spelledRRR_of_decodeNamed (o := 0x04) fun nreg w h => by rw [decodeNamed, h]; rfl

theorem spelledRRR_xor : SpelledRRR 0x05 .xor :=
  spelledRRR_of_decodeNamed (o := 0x05) fun nreg w h => by rw [decodeNamed, h]; rfl

theorem spelledRR_not : SpelledRR 0x06 .not :=
  spelledRR_of_decodeNamed (o := 0x06) fun nreg w h => by rw [decodeNamed, h]; rfl

theorem spelledRRR_tcu : SpelledRRR 0x09 .tcu :=
  spelledRRR_of_decodeNamed (o := 0x09) fun nreg w h => by rw [decodeNamed, h]; rfl

theorem spelledRRR_tcs : SpelledRRR 0x0A .tcs :=
  spelledRRR_of_decodeNamed (o := 0x0A) fun nreg w h => by rw [decodeNamed, h]; rfl

/-! ### Register instructions that always complete (41_alu.md R90–R96, R101, R102) -/

/-- In a state that meets the invariant, every register of an instruction whose registers exist has an entry. -/
theorem State.Inv.has_of_registersExist {s : State} (hs : s.Inv) {i : Instr} {r : Reg}
    (hi : i.registersExist s.cfg.nreg = true) (hr : r ∈ i.registers) : s.has r :=
  State.has_of_existsIn hs.registers (List.all_eq_true.1 hi r hr)

/-- An instruction that writes `f` of two registers read after the advance writes `f` of the operands R74 gives it. -/
theorem writesResult_of_exec_binary {i : Instr} {s : State} {rA rB rC : Reg} {f : Word → Word → Word} (hr : s.has rA)
    (h : exec i s = .next (s.advance.writeReg rA (f (s.advance.readReg rB) (s.advance.readReg rC)))) :
    WritesResult i s rA (f (s.operand rB) (s.operand rC)) := by
  rw [State.readReg_advance, State.readReg_advance] at h
  exact writesResult_of_exec hr h

/-- Settles O30: the model's sum of words is the sum of their values modulo 2^32. -/
theorem addWritesWrappedSum : Obligations.AddWritesWrappedSum := by
  refine ⟨spelledRRR_add, fun s rA rB rC hs hi => ?_⟩
  have hA : s.has rA := hs.has_of_registersExist hi List.mem_cons_self
  rw [← BitVec.add_def]
  exact writesResult_of_exec_binary hA (exec_add s rA rB rC)

/-- The difference of words is the integer difference of their values modulo 2^32. -/
theorem ofInt_toNat_sub_toNat (x y : Word) : BitVec.ofInt 32 ((x.toNat : Int) - (y.toNat : Int)) = x - y := by
  apply BitVec.eq_of_toNat_eq
  rw [BitVec.toNat_ofInt, BitVec.toNat_sub]
  omega

/-- Settles O31: the model's difference of words is the integer difference modulo 2^32. -/
theorem subWritesWrappedDifference : Obligations.SubWritesWrappedDifference := by
  refine ⟨spelledRRR_sub, fun s rA rB rC hs hi => ?_⟩
  have hA : s.has rA := hs.has_of_registersExist hi List.mem_cons_self
  rw [ofInt_toNat_sub_toNat]
  exact writesResult_of_exec_binary hA (exec_sub s rA rB rC)

/-- Settles O32: each result is the bit vector operation of the same name, whose bits the library gives. -/
theorem logicActsBitByBit : Obligations.LogicActsBitByBit := by
  refine ⟨spelledRRR_and, spelledRRR_orr, spelledRRR_xor, spelledRR_not, fun s rA rB rC hs hi => ?_⟩
  have hA : s.has rA := hs.has_of_registersExist hi List.mem_cons_self
  refine ⟨⟨_, writesResult_of_exec_binary hA (exec_and s rA rB rC), fun k _ => BitVec.getLsbD_and⟩,
    ⟨_, writesResult_of_exec_binary hA (exec_orr s rA rB rC), fun k _ => BitVec.getLsbD_or⟩,
    ⟨_, writesResult_of_exec_binary hA (exec_xor s rA rB rC), fun k _ => BitVec.getLsbD_xor⟩,
    ⟨_, writesResult_of_exec hA (exec_not s rA rB), fun k hk => ?_⟩⟩
  rw [State.readReg_advance, BitVec.getLsbD_not, decide_eq_true hk, Bool.true_and]

/-- The compare result of two values of an order: 1 above, −1 below, 0 at equality (R101, R102). -/
theorem threeWay_of_order {α : Type} [Preorder α] [DecidableLT α] (b c : α) :
    (c < b → threeWay (decide (b > c)) (decide (b < c)) = 0x00000001) ∧
      (b < c → threeWay (decide (b > c)) (decide (b < c)) = 0xFFFFFFFF) ∧
      (b = c → threeWay (decide (b > c)) (decide (b < c)) = 0x00000000) := by
  refine ⟨fun h => ?_, fun h => ?_, fun h => ?_⟩
  · simp [threeWay, h]
  · simp [threeWay, h, h.not_gt]
  · simp [threeWay, h]

/-- Settles O37: Tcu's compare is the three-way compare of the operands as natural numbers. -/
theorem tcuComparesUnsigned : Obligations.TcuComparesUnsigned := by
  refine ⟨spelledRRR_tcu, fun s rA rB rC hs hi => ?_⟩
  have hA : s.has rA := hs.has_of_registersExist hi List.mem_cons_self
  obtain ⟨greater, less, equal⟩ := threeWay_of_order (s.operand rB).toNat (s.operand rC).toNat
  exact ⟨_, writesResult_of_exec_binary hA (exec_tcu s rA rB rC), greater, less,
    fun h => equal (congrArg BitVec.toNat h)⟩

/-- Settles O38: Tcs's compare is the three-way compare of the operands as signed integers. -/
theorem tcsComparesSigned : Obligations.TcsComparesSigned := by
  refine ⟨spelledRRR_tcs, fun s rA rB rC hs hi => ?_⟩
  have hA : s.has rA := hs.has_of_registersExist hi List.mem_cons_self
  obtain ⟨greater, less, equal⟩ := threeWay_of_order (s.operand rB).toInt (s.operand rC).toInt
  exact ⟨_, writesResult_of_exec_binary hA (exec_tcs s rA rB rC), greater, less,
    fun h => equal (congrArg BitVec.toInt h)⟩

end Sys2Proof.Machine

namespace Sys2Proof.Machine

/-! ### The encoding line of the constant shape (30_encoding.md R56, R58) -/

/-- The word R56 spells for a 16-bit constant is the one the encoder packs. -/
theorem or_shiftLeft_eq_packImm (f : BitVec 16) (a o : Byte) :
    o.setWidth 32 ||| a.setWidth 32 <<< 8 ||| f.setWidth 32 <<< 16 = f ++ a ++ o := by
  ext k hk
  simp only [BitVec.getElem_or, BitVec.getElem_shiftLeft, BitVec.getElem_setWidth]
  grind

/-- `sext_16` (00_scope.md R7) is the library's sign extension. -/
theorem signExtended16_eq_signExtend (f : BitVec 16) : signExtended16 f = f.signExtend 32 := by
  cases hf : f.msb with
  | false =>
    have hbit : f.getLsbD 15 = false := hf
    rw [signExtended16, hbit, BitVec.signExtend_eq_setWidth_of_msb_false hf]
    rfl
  | true =>
    have hbit : f.getLsbD 15 = true := hf
    rw [signExtended16, if_pos hbit, BitVec.signExtend, BitVec.toInt_eq_msb_cond, if_pos hf]
    rfl

/-- An opcode that is decoded in shape RI has the RI encoding line, its constant sign-extended. -/
theorem spelledRI_of_decodeNamed {o : Byte} {mk : Reg → Word → Instr}
    (h : ∀ nreg w, opField w = o → decodeNamed nreg w = decodeRI nreg mk w) : SpelledRI (o.setWidth 32) mk := by
  intro nreg a f hn ha
  rw [registerCode_eq_setWidth_code hn ha, or_shiftLeft_eq_packImm, decodeSRE, h _ _ (opField_packImm _ _ _),
    signExtended16_eq_signExtend]
  exact congrArg Except.toOption (decodeRI_pack hn ha mk f o)

theorem spelledRI_set : SpelledRI 0x0B .set :=
  spelledRI_of_decodeNamed (o := 0x0B) fun nreg w h => by rw [decodeNamed, h]; rfl

theorem spelledRR_mov : SpelledRR 0x0C .mov :=
  spelledRR_of_decodeNamed (o := 0x0C) fun nreg w h => by rw [decodeNamed, h]; rfl

/-! ### The move instructions (42_move.md R120, R121) -/

/-- Settles O39: the execution is the advance followed by one write of the constant. -/
theorem setWritesConstant : Obligations.SetWritesConstant := by
  refine ⟨spelledRI_set, fun s rA imm hs hi => ?_⟩
  have hA : s.has rA := hs.has_of_registersExist hi List.mem_cons_self
  exact writesResult_of_exec hA (exec_set s rA imm)

/-- Settles O40: the value written is rB read after the advance, which is the operand R74 gives. -/
theorem movCopiesRegister : Obligations.MovCopiesRegister := by
  refine ⟨spelledRR_mov, fun s rA rB hs hi => ?_⟩
  have hA : s.has rA := hs.has_of_registersExist hi List.mem_cons_self
  rw [← State.readReg_advance]
  exact writesResult_of_exec hA (exec_mov s rA rB)

end Sys2Proof.Machine

namespace Sys2Proof.Machine

/-! ### The encoding lines of the loads and stores (43_load_store.md R131–R134) -/

theorem spelledRR_ldw : SpelledRR 0x0D .ldw :=
  spelledRR_of_decodeNamed (o := 0x0D) fun nreg w h => by rw [decodeNamed, h]; rfl

theorem spelledRR_stw : SpelledRR 0x0E .stw :=
  spelledRR_of_decodeNamed (o := 0x0E) fun nreg w h => by rw [decodeNamed, h]; rfl

theorem spelledRR_ldb : SpelledRR 0x0F .ldb :=
  spelledRR_of_decodeNamed (o := 0x0F) fun nreg w h => by rw [decodeNamed, h]; rfl

theorem spelledRR_stb : SpelledRR 0x10 .stb :=
  spelledRR_of_decodeNamed (o := 0x10) fun nreg w h => by rw [decodeNamed, h]; rfl

/-! ### The loads and stores (43_load_store.md R131–R134) -/

/-- Byte `k` of a word is its bits 8k+7 … 8k, as a number. -/
theorem toNat_byteOfWord (w : Word) (k : Nat) : (byteOfWord w k).toNat = w.toNat / 2 ^ (8 * k) % 2 ^ 8 := by
  rw [byteOfWord, BitVec.extractLsb'_toNat, Nat.shiftRight_eq_div_pow]

/-- Replacing memory after the advance leaves everything else. -/
theorem leavesAllButMemory_advance (s : State) (m : Memory) : LeavesAllButMemory s { s.advance with mem := m } where
  registers q := by rw [State.readReg_with_mem, State.readReg_advance]
  run := s.advance_run
  cfg := s.advance_cfg

/-- An in-bounds Ldw writes the little-endian word at its address, which need not be aligned (R131). -/
theorem writesResult_ldw {s : State} {rA rB : Reg} (hA : s.has rA) (h : s.inBounds (s.operand rB) .word) :
    WritesResult (.ldw rA rB) s rA (littleEndianWord s.mem (s.operand rB).toNat) := by
  rw [← State.readReg_advance] at h ⊢
  rw [← Memory.readWord_eq_littleEndianWord]
  exact writesResult_of_exec hA (exec_ldw_of_inBounds h)

/-- An in-bounds Ldb writes its old destination combined with the byte at its address (R133). -/
theorem writesResult_ldb {s : State} {rA rB : Reg} (hA : s.has rA) (h : s.inBounds (s.operand rB) .byte) :
    WritesResult (.ldb rA rB) s rA
      (ldbCombine s.cfg.ldbMode (s.operand rA) (s.mem.read (s.operand rB).toNat)) := by
  simp only [← State.readReg_advance] at h ⊢
  exact writesResult_of_exec hA (exec_ldb_of_inBounds h)

/-- An in-bounds Stw, read through its operands: the advance, and one word stored (R132). -/
theorem exec_stw_operand {s : State} {rA : Reg} (rB : Reg) (h : s.inBounds (s.operand rA) .word) :
    exec (.stw rA rB) s =
      .next { s.advance with mem := s.mem.writeWord (s.operand rA).toNat (s.operand rB) } := by
  simp only [← State.readReg_advance] at h ⊢
  exact exec_stw_of_inBounds h

/-- An in-bounds Stb, read through its operands: the advance, and the low byte stored (R134). -/
theorem exec_stb_operand {s : State} {rA : Reg} (rB : Reg) (h : s.inBounds (s.operand rA) .byte) :
    exec (.stb rA rB) s =
      .next { s.advance with mem := s.mem.write (s.operand rA).toNat (byteOfWord (s.operand rB) 0) } := by
  simp only [← State.readReg_advance] at h ⊢
  exact exec_stb_of_inBounds h

/-- R132's round trip: a word loaded from the address it was just stored at is the stored word. -/
theorem writesResult_ldw_after_stw {s t : State} {rA rB rD rE : Reg} (hD : s.has rD)
    (h : s.inBounds (s.operand rA) .word) (hst : exec (.stw rA rB) s = .next t) (hE : t.operand rE = s.operand rA) :
    WritesResult (.ldw rD rE) t rD (s.operand rB) := by
  rw [exec_stw_operand rB h] at hst
  injection hst with ht
  have hmem : t.mem = s.mem.writeWord (s.operand rA).toNat (s.operand rB) := by rw [← ht]
  have hD' : t.has rD := by rw [← ht]; exact State.has_advance hD
  have hin : t.inBounds (t.operand rE) .word := by rw [hE, ← ht]; exact h
  have hload := writesResult_ldw hD' hin
  rwa [hE, hmem, ← Memory.readWord_eq_littleEndianWord, Memory.readWord_writeWord] at hload

/-- Settles O43: the stored bytes, the other bytes and the round trip are the read-after-write laws of a word. -/
theorem stwStoresWord : Obligations.StwStoresWord := by
  refine ⟨spelledRR_stw, fun s rA rB hs _ => ⟨fun h => ?_, fun h => ?_, fun t rD rE h hst hD hE => ?_⟩⟩
  · refine ⟨_, exec_stw_operand rB h, leavesAllButMemory_advance s _, fun j hj => ?_,
      fun a ha => Memory.read_writeWord_of_outside ha s.mem _⟩
    rw [Memory.read_writeWord_inside s.mem _ _ hj, toNat_byteOfWord]
  · rw [← State.readReg_advance] at h ⊢
    exact exec_stw_of_not_inBounds (Nat.not_le.2 h)
  · exact writesResult_ldw_after_stw (State.has_of_existsIn hs.registers hD) h hst hE

/-- Settles O42, by cases on whether the word is in bounds. -/
theorem ldwLoadsWord : Obligations.LdwLoadsWord := by
  refine ⟨spelledRR_ldw, fun s rA rB hs hi => ⟨fun h => ?_, fun h => ?_⟩⟩
  · exact writesResult_ldw (hs.has_of_registersExist hi List.mem_cons_self) h
  · rw [← State.readReg_advance] at h ⊢
    exact exec_ldw_of_not_inBounds (Nat.not_le.2 h)

/-- Settles O44: the combine rule of each LDB_MODE is the word written in bounds. -/
theorem ldbCombinesByte : Obligations.LdbCombinesByte := by
  refine ⟨spelledRR_ldb, fun s rA rB hs hi => ?_⟩
  have hA : s.has rA := hs.has_of_registersExist hi List.mem_cons_self
  refine ⟨fun h hmode => ?_, fun h hmode => ?_, fun h => ?_⟩
  · rw [BitVec.ofNat_toNat]
    simpa only [hmode, ldbCombine, zext8] using writesResult_ldb hA h
  · rw [BitVec.ofNat_toNat]
    simpa only [hmode, ldbCombine, zext8] using writesResult_ldb hA h
  · rw [← State.readReg_advance] at h ⊢
    exact exec_ldb_of_not_inBounds (Nat.not_le.2 h)

/-- Settles O45: the stored byte is byte 0 of rB, and a byte write leaves the other addresses alone. -/
theorem stbStoresLowByte : Obligations.StbStoresLowByte := by
  refine ⟨spelledRR_stb, fun s rA rB _ _ => ⟨fun h => ?_, fun h => ?_⟩⟩
  · refine ⟨_, exec_stb_operand rB h, leavesAllButMemory_advance s _, ?_,
      fun a ha => Memory.read_write_of_ne ha s.mem _⟩
    rw [Memory.read_write_self, toNat_byteOfWord, Nat.mul_zero, Nat.pow_zero, Nat.div_one]
  · rw [← State.readReg_advance] at h ⊢
    exact exec_stb_of_not_inBounds (Nat.not_le.2 h)

end Sys2Proof.Machine

namespace Sys2Proof.Machine

/-! ### Decoding the canonical word (30_encoding.md R56–R58, R61) -/

theorem spelledRRR_lsh : SpelledRRR 0x07 .lsh :=
  spelledRRR_of_decodeNamed (o := 0x07) fun nreg w h => by rw [decodeNamed, h]; rfl

theorem spelledRRR_ash : SpelledRRR 0x08 .ash :=
  spelledRRR_of_decodeNamed (o := 0x08) fun nreg w h => by rw [decodeNamed, h]; rfl

/-- The encoder's word of shape RRR is the one the shape's encoding line spells. -/
theorem decodeSRE_encodeRRR (o : Byte) {mk : Reg → Reg → Reg → Instr} (h : SpelledRRR (o.setWidth 32) mk) {nreg : Nat}
    (hn : nreg ≤ 255) {a b c : Reg} (hr : ∀ r ∈ [a, b, c], r.existsIn nreg = true) :
    decodeSRE nreg (encodeRRR nreg o a b c) = some (mk a b c) := by
  have ha : a.existsIn nreg = true := hr a (by simp)
  have hb : b.existsIn nreg = true := hr b (by simp)
  have hc : c.existsIn nreg = true := hr c (by simp)
  rw [encodeRRR, ← or_shiftLeft_eq_pack, ← registerCode_eq_setWidth_code hn ha, ← registerCode_eq_setWidth_code hn hb,
    ← registerCode_eq_setWidth_code hn hc]
  exact h nreg a b c hn ha hb hc

/-- The encoder's word of shape RR is the one the shape's encoding line spells with bits 31:24 written 0. -/
theorem decodeSRE_encodeRR (o : Byte) {mk : Reg → Reg → Instr} (h : SpelledRR (o.setWidth 32) mk) {nreg : Nat}
    (hn : nreg ≤ 255) {a b : Reg} (hr : ∀ r ∈ [a, b], r.existsIn nreg = true) :
    decodeSRE nreg (encodeRR nreg o a b) = some (mk a b) := by
  have ha : a.existsIn nreg = true := hr a (by simp)
  have hb : b.existsIn nreg = true := hr b (by simp)
  rw [encodeRR, ← or_shiftLeft_eq_pack, ← registerCode_eq_setWidth_code hn ha, ← registerCode_eq_setWidth_code hn hb]
  exact h nreg a b 0 hn ha hb

/-- The encoder's word of shape RI is the one the shape's encoding line spells, if the constant fits (R61). -/
theorem decodeSRE_encodeRI (o : Byte) {mk : Reg → Word → Instr} (h : SpelledRI (o.setWidth 32) mk) {nreg : Nat}
    (hn : nreg ≤ 255) {a : Reg} {imm : Word} (ha : a.existsIn nreg = true) (hi : immediateFits16 imm = true) :
    decodeSRE nreg (encodeRI nreg o a imm) = some (mk a imm) := by
  have hfit : signExtended16 (imm.extractLsb' 0 16) = imm := by
    rw [signExtended16_eq_signExtend]
    exact of_decide_eq_true hi
  rw [encodeRI, ← or_shiftLeft_eq_packImm, ← registerCode_eq_setWidth_code hn ha, h nreg a _ hn ha, hfit]

/-- A well-formed instruction names registers that exist and a constant that fits. -/
theorem wellFormed_iff {nreg : Nat} {i : Instr} :
    i.wellFormed nreg = true ↔ (∀ r ∈ i.registers, r.existsIn nreg = true) ∧ i.immediateFits = true := by
  rw [Instr.wellFormed, Bool.and_eq_true, Instr.registersExist, List.all_eq_true]

/-- Settles O2: by cases on the instruction, each the encoding line of its opcode. -/
theorem decodeOfEncodeIsIdentity : Obligations.DecodeOfEncodeIsIdentity := by
  intro nreg i hn hi
  obtain ⟨hr, himm⟩ := wellFormed_iff.1 hi
  cases i with
  | nop => exact decodeSRE_of_opField_zero nreg (opField_packN _ _)
  | add => exact decodeSRE_encodeRRR 0x01 spelledRRR_add hn hr
  | sub => exact decodeSRE_encodeRRR 0x02 spelledRRR_sub hn hr
  | and => exact decodeSRE_encodeRRR 0x03 spelledRRR_and hn hr
  | orr => exact decodeSRE_encodeRRR 0x04 spelledRRR_orr hn hr
  | xor => exact decodeSRE_encodeRRR 0x05 spelledRRR_xor hn hr
  | not => exact decodeSRE_encodeRR 0x06 spelledRR_not hn hr
  | lsh => exact decodeSRE_encodeRRR 0x07 spelledRRR_lsh hn hr
  | ash => exact decodeSRE_encodeRRR 0x08 spelledRRR_ash hn hr
  | tcu => exact decodeSRE_encodeRRR 0x09 spelledRRR_tcu hn hr
  | tcs => exact decodeSRE_encodeRRR 0x0A spelledRRR_tcs hn hr
  | set rA imm => exact decodeSRE_encodeRI 0x0B spelledRI_set hn (hr rA List.mem_cons_self) himm
  | mov => exact decodeSRE_encodeRR 0x0C spelledRR_mov hn hr
  | ldw => exact decodeSRE_encodeRR 0x0D spelledRR_ldw hn hr
  | stw => exact decodeSRE_encodeRR 0x0E spelledRR_stw hn hr
  | ldb => exact decodeSRE_encodeRR 0x0F spelledRR_ldb hn hr
  | stb => exact decodeSRE_encodeRR 0x10 spelledRR_stb hn hr

end Sys2Proof.Machine

namespace Sys2Proof.Machine

/-! ### Faults taken are genuine (60_exceptions.md R150, R152, R153) -/

/-- A shift magnitude of 32 or more, as a signed amount (R97). -/
theorem le_shiftMagnitude_iff {c : Word} : 32 ≤ shiftMagnitude c ↔ 32 ≤ c.toInt ∨ c.toInt ≤ -32 := by
  rw [shiftMagnitude, signed32]
  omega

/-- The faults of fetch and decode, and when each is raised (R154). -/
theorem fetchDecode_reference_eq_error {s : State} {c : FaultCause} (h : fetchDecode referenceDecoder s = .error c) :
    (¬ s.inBounds s.pc .word ∧ c = .outOfBounds .fetch s.pc .word) ∨
      (s.inBounds s.pc .word ∧ decodeSRE s.cfg.nreg (littleEndianWord s.mem s.pc.toNat) = none ∧
        c = .invalidEncoding (littleEndianWord s.mem s.pc.toNat)) := by
  by_cases hb : s.inBounds s.pc .word
  · cases hd : decodeSRE s.cfg.nreg (littleEndianWord s.mem s.pc.toNat) with
    | none =>
      rw [fetchDecode_reference_of_none hb hd] at h
      injection h with h
      exact .inr ⟨hb, rfl, h.symm⟩
    | some i =>
      rw [fetchDecode_reference_of_some hb hd] at h
      cases h
  · rw [fetchDecode_of_not_inBounds hb] at h
    injection h with h
    exact .inl ⟨hb, h.symm⟩

/-- A fault of fetch or decode is genuine in the state it rolls back to. -/
theorem genuineFault_of_fetchDecode {s : State} {c : FaultCause} (h : fetchDecode referenceDecoder s = .error c) :
    GenuineFault (s.raise c) { cause := c, faultPc := s.pc } := by
  rcases fetchDecode_reference_eq_error h with ⟨hb, rfl⟩ | ⟨-, hd, rfl⟩
  · refine ⟨rfl, fun kind a size hc => ?_, nofun, nofun⟩
    cases hc
    exact ⟨Nat.not_le.1 hb, fun _ => ⟨rfl, rfl⟩⟩
  · refine ⟨rfl, nofun, fun w hc => ?_, nofun⟩
    cases hc
    exact ⟨rfl, hd⟩

/-- An access outside memory by a load or a store is a genuine fault. -/
theorem genuineFault_outOfBounds {s : State} {kind : AccessKind} {a : Word} {size : AccessSize}
    (hk : kind ≠ .fetch) (h : ¬ s.inBounds a size) :
    GenuineFault (s.raise (.outOfBounds kind a size)) { cause := .outOfBounds kind a size, faultPc := s.pc } := by
  refine ⟨rfl, fun kind a size hc => ?_, nofun, nofun⟩
  cases hc
  exact ⟨Nat.not_le.1 h, fun he => absurd he hk⟩

/-- A shift by 32 or more under `SHIFT_OOR = fault` is a genuine fault. -/
theorem genuineFault_shiftOutOfRange {s : State} {tag : ShiftTag} {c : Word} (hm : s.cfg.shiftOor = .fault)
    (h : 32 ≤ shiftMagnitude c) :
    GenuineFault (s.raise (.shiftOutOfRange tag c)) { cause := .shiftOutOfRange tag c, faultPc := s.pc } := by
  refine ⟨rfl, nofun, nofun, fun tag c hc => ?_⟩
  cases hc
  exact ⟨hm, le_shiftMagnitude_iff.1 h⟩

/-- A fault an instruction raises is genuine in the state it rolls back to. -/
theorem ExecFault.genuineFault {s : State} {i : Instr} {c : FaultCause} (h : ExecFault s i c) :
    GenuineFault (s.raise c) { cause := c, faultPc := s.pc } := by
  cases h with
  | ldw h => exact genuineFault_outOfBounds nofun h
  | ldb h => exact genuineFault_outOfBounds nofun h
  | stw h => exact genuineFault_outOfBounds nofun h
  | stb h => exact genuineFault_outOfBounds nofun h
  | lsh hm h => exact genuineFault_shiftOutOfRange hm h
  | ash hm h => exact genuineFault_shiftOutOfRange hm h

/-! ### The invariant and the state's operations (10_state.md R18, R44) -/

/-- Taking a genuine fault keeps the invariant: nothing but the run state changes. -/
theorem State.Inv.raise {s : State} (hs : s.Inv) {c : FaultCause}
    (hc : GenuineFault (s.raise c) { cause := c, faultPc := s.pc }) : (s.raise c).Inv where
  cfg := hs.cfg
  registers := hs.registers
  memory := hs.memory
  memoryBelow := hs.memoryBelow
  fault record hr := by
    cases hr
    exact hc

/-- A Running state that keeps the parameters, the register file's size and the memory of one that meets the invariant. -/
theorem State.Inv.of_running {s t : State} (hs : s.Inv) (hr : t.run = .running) (hc : t.cfg = s.cfg)
    (hl : t.regs.length = s.regs.length) (hm : t.mem.wf) (hb : ∀ c ∈ t.mem, c.1 < s.cfg.memSize) : t.Inv where
  cfg := hc ▸ hs.cfg
  registers := by rw [hl, hc, hs.registers]
  memory := hm
  memoryBelow := by rwa [hc]
  fault record hf := by rw [hr] at hf; cases hf

/-- Every effect of an instruction on a Running core keeps the invariant. -/
theorem State.Inv.of_effect {s t : State} {i : Instr} (hs : s.Inv) (hr : s.run = .running) (he : Effect s i t) :
    t.Inv := by
  cases he with
  | advance => exact hs.of_running hr rfl rfl hs.memory hs.memoryBelow
  | write _ v =>
    exact hs.of_running (by simpa using hr) (by simp) (by simp) (by simpa using hs.memory)
      (by simpa using hs.memoryBelow)
  | storeWord h =>
    exact hs.of_running hr rfl rfl (Memory.wf_writeWord hs.memory _ _) (Memory.lt_writeWord hs.memoryBelow h _)
  | storeByte h =>
    exact hs.of_running hr rfl rfl (Memory.wf_write hs.memory _ _) (Memory.lt_write hs.memoryBelow h _)
  | fault h => exact hs.raise h.genuineFault

/-- Settles O10: a fault of fetch or decode is genuine, and an executed instruction has an effect that keeps the invariant. -/
theorem stepKeepsInvariant : Obligations.StepKeepsInvariant := by
  intro s t hs h
  obtain ⟨hr, ⟨c, hc, rfl⟩ | ⟨i, -, hi⟩⟩ := stepWith_cases h
  · exact hs.raise (genuineFault_of_fetchDecode hc)
  · exact hs.of_effect hr (effect_of_exec hi)

/-! ### Construction and image load (10_state.md R28; 70_reset_and_hazards.md R183, R184) -/

/-- Every identifier reads 0 after construction. -/
theorem State.readReg_construct {c : Config} {r : Reg} (h : r.existsIn c.nreg = true) :
    (State.construct c).readReg r = 0 := by
  cases r with
  | r n =>
    have hn : n < c.nreg := of_decide_eq_true h
    simp [State.readReg, hn]
  | pc => rfl

/-- Settles O6: every identifier has an entry of the zeroed register file, and empty memory reads 0. -/
theorem constructionZeroesEverything : Obligations.ConstructionZeroesEverything :=
  ⟨fun _ _ => State.readReg_construct, fun _ a => Memory.read_nil a, fun _ => ⟨rfl, rfl⟩, rfl⟩

/-- Construction with legal parameters meets the invariant. -/
theorem State.Inv.construct {c : Config} (hc : c.wf) : (State.construct c).Inv where
  cfg := hc
  registers := List.length_replicate
  memory := Memory.wf_nil
  memoryBelow := by simp
  fault := nofun

/-- Settles O8: reset is construction with the reference parameters. -/
theorem resetMeetsInvariant : Obligations.ResetMeetsInvariant :=
  State.Inv.construct (by decide)

/-- Settles O9: the image load writes below MEMSIZE only and keeps the canonical form. -/
theorem launchMeetsInvariant : Obligations.LaunchMeetsInvariant := fun c img hc =>
  (State.Inv.construct hc).of_running (t := State.launch c img) rfl rfl rfl
    (Memory.wf_load c.memSize img Memory.wf_nil 0) (Memory.lt_load img (by simp) 0)

/-- What a byte reads as after a load from address `i`: the image's byte where it has one below the limit. -/
theorem Memory.read_load (limit : Nat) (img : List Byte) (m : Memory) (i a : Nat) :
    (Memory.load limit m i img).read a =
      if i ≤ a ∧ a < limit ∧ a - i < img.length then img.getD (a - i) 0 else m.read a := by
  induction img generalizing m i with
  | nil => simp [Memory.load]
  | cons b bs ih =>
    have hother : a ≠ i → (if i < limit then m.write i b else m).read a = m.read a := fun ha => by
      split
      · exact Memory.read_write_of_ne ha m b
      · rfl
    rw [Memory.load, ih]
    rcases Nat.lt_trichotomy a i with hlt | rfl | hgt
    · rw [hother (by omega), if_neg (by omega), if_neg (by omega)]
    · by_cases ha : a < limit
      · simp [ha]
      · simp [ha]
    · have hsub : a - i = (a - (i + 1)) + 1 := by omega
      rw [hother (by omega), hsub, List.getD_cons_succ, List.length_cons]
      exact if_congr (by omega) rfl rfl

/-- Settles O7: a load from address 0 into the empty memory. -/
theorem imageFillsMemoryFromZero : Obligations.ImageFillsMemoryFromZero := by
  refine fun c img => ⟨fun a => ?_, fun r => State.readReg_with_mem _ _ r, rfl, rfl⟩
  refine (Memory.read_load c.memSize img [] 0 a).trans ?_
  by_cases hlen : a < img.length
  · simp [hlen, Memory.unlisted]
  · simp [hlen, Memory.unlisted]

end Sys2Proof.Machine

namespace Sys2Proof.Machine

/-! ### One row of the opcode table (30_encoding.md R57–R59, R61) -/

/-- The shape of an opcode's row: the instruction `mk` that its words decode to and that encodes to its words. Each fact of
a row is the decoder's and the encoder's own arm for that opcode, so evaluation proves it. -/
inductive OpcodeShape (o : Byte) : Prop where
  | n (ho : o.toNat = 0 := by rfl)
      (decode : ∀ nreg w, opField w = o → decodeNamed nreg w = .ok .nop := by intro _ _ h; rw [decodeNamed, h]; rfl)
      (encode : ∀ nreg, encode nreg .nop = encodeN o := by intros; rfl)
  | rrr (mk : Reg → Reg → Reg → Instr)
      (ho : 1 ≤ o.toNat ∧ o.toNat ≤ 5 ∨ 7 ≤ o.toNat ∧ o.toNat ≤ 0x0A := by simp)
      (decode : ∀ nreg w, opField w = o → decodeNamed nreg w = decodeRRR nreg mk w := by
        intro _ _ h; rw [decodeNamed, h]; rfl)
      (encode : ∀ nreg a b c, encode nreg (mk a b c) = encodeRRR nreg o a b c := by intros; rfl)
      (fits : ∀ a b c, (mk a b c).immediateFits = true := by intros; rfl)
  | rr (mk : Reg → Reg → Instr)
      (ho : o.toNat = 6 ∨ 0x0C ≤ o.toNat ∧ o.toNat ≤ 0x10 := by simp)
      (decode : ∀ nreg w, opField w = o → decodeNamed nreg w = decodeRR nreg mk w := by
        intro _ _ h; rw [decodeNamed, h]; rfl)
      (encode : ∀ nreg a b, encode nreg (mk a b) = encodeRR nreg o a b := by intros; rfl)
      (fits : ∀ a b, (mk a b).immediateFits = true := by intros; rfl)
  | ri (mk : Reg → Word → Instr) (ho : o.toNat = 0x0B := by rfl)
      (decode : ∀ nreg w, opField w = o → decodeNamed nreg w = decodeRI nreg mk w := by
        intro _ _ h; rw [decodeNamed, h]; rfl)
      (encode : ∀ nreg a imm, encode nreg (mk a imm) = encodeRI nreg o a imm := by intros; rfl)
      (fits : ∀ a imm, (mk a imm).immediateFits = immediateFits16 imm := by intros; rfl)
  | unassigned (ho : 0x11 ≤ o.toNat)
      (decode : ∀ nreg w, opField w = o → decodeNamed nreg w = .error (.unassignedOpcode o))

/-- The opcode table of R57. -/
theorem opcodeShape : ∀ o : Byte, OpcodeShape o
  | ⟨⟨0x00, _⟩⟩ => .n
  | ⟨⟨0x01, _⟩⟩ => .rrr .add
  | ⟨⟨0x02, _⟩⟩ => .rrr .sub
  | ⟨⟨0x03, _⟩⟩ => .rrr .and
  | ⟨⟨0x04, _⟩⟩ => .rrr .orr
  | ⟨⟨0x05, _⟩⟩ => .rrr .xor
  | ⟨⟨0x06, _⟩⟩ => .rr .not
  | ⟨⟨0x07, _⟩⟩ => .rrr .lsh
  | ⟨⟨0x08, _⟩⟩ => .rrr .ash
  | ⟨⟨0x09, _⟩⟩ => .rrr .tcu
  | ⟨⟨0x0A, _⟩⟩ => .rrr .tcs
  | ⟨⟨0x0B, _⟩⟩ => .ri .set
  | ⟨⟨0x0C, _⟩⟩ => .rr .mov
  | ⟨⟨0x0D, _⟩⟩ => .rr .ldw
  | ⟨⟨0x0E, _⟩⟩ => .rr .stw
  | ⟨⟨0x0F, _⟩⟩ => .rr .ldb
  | ⟨⟨0x10, _⟩⟩ => .rr .stb
  | ⟨⟨n + 0x11, h⟩⟩ => .unassigned (Nat.le_add_left _ n) fun _ _ he => by rw [decodeNamed, he]; rfl

/-! ### When a shape decodes (R58, R60) -/

/-- A computation that binds answers ok exactly if both of its parts do. -/
theorem except_bind_eq_ok {ε α β : Type} {x : Except ε α} {f : α → Except ε β} {b : β} :
    x >>= f = .ok b ↔ ∃ a, x = .ok a ∧ f a = .ok b := by
  cases x with
  | error e => simp [bind, Except.bind]
  | ok a => simp [bind, Except.bind]

theorem decodeRRR_eq_ok {nreg : Nat} {mk : Reg → Reg → Reg → Instr} {w : Word} {i : Instr} :
    decodeRRR nreg mk w = .ok i ↔ ∃ a, regOfField nreg (fieldA w) = .ok a ∧ ∃ b, regOfField nreg (fieldB w) = .ok b ∧
      ∃ c, regOfField nreg (fieldC w) = .ok c ∧ mk a b c = i := by
  simp only [decodeRRR, except_bind_eq_ok, pure, Except.pure, Except.ok.injEq]

theorem decodeRR_eq_ok {nreg : Nat} {mk : Reg → Reg → Instr} {w : Word} {i : Instr} :
    decodeRR nreg mk w = .ok i ↔ ∃ a, regOfField nreg (fieldA w) = .ok a ∧ ∃ b, regOfField nreg (fieldB w) = .ok b ∧
      mk a b = i := by
  simp only [decodeRR, except_bind_eq_ok, pure, Except.pure, Except.ok.injEq]

theorem decodeRI_eq_ok {nreg : Nat} {mk : Reg → Word → Instr} {w : Word} {i : Instr} :
    decodeRI nreg mk w = .ok i ↔ ∃ a, regOfField nreg (fieldA w) = .ok a ∧ mk a ((fieldImm w).signExtend 32) = i := by
  simp only [decodeRI, except_bind_eq_ok, pure, Except.pure, Except.ok.injEq]

theorem decodeSRE_eq_some {nreg : Nat} {w : Word} {i : Instr} :
    decodeSRE nreg w = some i ↔ decodeNamed nreg w = .ok i := by
  rw [decodeSRE]
  cases decodeNamed nreg w with
  | error e => simp [Except.toOption]
  | ok j => simp [Except.toOption]

theorem decodeSRE_eq_none {nreg : Nat} {w : Word} :
    decodeSRE nreg w = none ↔ ¬ ∃ i, decodeNamed nreg w = .ok i := by
  simp only [Option.eq_none_iff_forall_ne_some, ne_eq, decodeSRE_eq_some, not_exists]

/-- A register field decodes exactly if it is at most NREG (R58). -/
theorem exists_regOfField_eq_ok {nreg : Nat} {f : Byte} : (∃ r, regOfField nreg f = .ok r) ↔ f.toNat ≤ nreg := by
  rcases regOfField_cases nreg f with ⟨r, hr, -, hf⟩ | ⟨hr, hf⟩
  · simp [hr, hf]
  · simp [hr, hf]

theorem exists_decodeRRR_eq_ok {nreg : Nat} {mk : Reg → Reg → Reg → Instr} {w : Word} :
    (∃ i, decodeRRR nreg mk w = .ok i) ↔
      (fieldA w).toNat ≤ nreg ∧ (fieldB w).toNat ≤ nreg ∧ (fieldC w).toNat ≤ nreg := by
  simp only [decodeRRR_eq_ok, ← exists_regOfField_eq_ok]
  exact ⟨fun ⟨_, a, ha, b, hb, c, hc, _⟩ => ⟨⟨a, ha⟩, ⟨b, hb⟩, ⟨c, hc⟩⟩,
    fun ⟨⟨a, ha⟩, ⟨b, hb⟩, ⟨c, hc⟩⟩ => ⟨_, a, ha, b, hb, c, hc, rfl⟩⟩

theorem exists_decodeRR_eq_ok {nreg : Nat} {mk : Reg → Reg → Instr} {w : Word} :
    (∃ i, decodeRR nreg mk w = .ok i) ↔ (fieldA w).toNat ≤ nreg ∧ (fieldB w).toNat ≤ nreg := by
  simp only [decodeRR_eq_ok, ← exists_regOfField_eq_ok]
  exact ⟨fun ⟨_, a, ha, b, hb, _⟩ => ⟨⟨a, ha⟩, ⟨b, hb⟩⟩, fun ⟨⟨a, ha⟩, ⟨b, hb⟩⟩ => ⟨_, a, ha, b, hb, rfl⟩⟩

theorem exists_decodeRI_eq_ok {nreg : Nat} {mk : Reg → Word → Instr} {w : Word} :
    (∃ i, decodeRI nreg mk w = .ok i) ↔ (fieldA w).toNat ≤ nreg := by
  simp only [decodeRI_eq_ok, ← exists_regOfField_eq_ok]
  exact ⟨fun ⟨_, a, ha, _⟩ => ⟨a, ha⟩, fun ⟨a, ha⟩ => ⟨_, a, ha, rfl⟩⟩

/-- Settles O5: by cases on the shape of the opcode, which names the register fields it uses. -/
theorem illegalWordsExactly : Obligations.IllegalWordsExactly := by
  intro nreg w
  have hC : (fieldC w).toNat = w.toNat / 2 ^ 24 := by
    rw [toNat_fieldC, Nat.mod_eq_of_lt (by omega)]
  rw [decodeSRE_eq_none, ← hC, ← toNat_opField, ← toNat_fieldA, ← toNat_fieldB]
  cases opcodeShape (opField w) with
  | n ho decode =>
    simp only [decode nreg w rfl, Except.ok.injEq, exists_eq', not_true_eq_false, false_iff]
    omega
  | rrr mk ho decode =>
    rw [decode nreg w rfl, exists_decodeRRR_eq_ok]
    omega
  | rr mk ho decode =>
    rw [decode nreg w rfl, exists_decodeRR_eq_ok]
    omega
  | ri mk ho decode =>
    rw [decode nreg w rfl, exists_decodeRI_eq_ok]
    omega
  | unassigned ho decode =>
    simp only [decode nreg w rfl, reduceCtorEq, exists_false, not_false_eq_true, true_iff]
    exact .inl ho

/-! ### The bits a shape uses (R59) -/

/-- Shapes RRR and RI use every bit, and `usedBits` masks nothing of an unassigned opcode's word. -/
theorem usedBits_eq_allOnes {op : Nat} (h : 1 ≤ op ∧ op ≤ 5 ∨ 7 ≤ op ∧ op ≤ 0x0B ∨ 0x11 ≤ op) :
    usedBits op = BitVec.allOnes 32 := by
  rw [usedBits, if_neg (by omega), if_neg (by omega)]
  rfl

/-- Shape RR uses bits 23:0. -/
theorem usedBits_eq_low24 {op : Nat} (h : op = 6 ∨ 0x0C ≤ op ∧ op ≤ 0x10) : usedBits op = 0x00FFFFFF := by
  rw [usedBits, if_neg (by omega), if_pos (by omega)]

/-- Every shape uses the opcode. -/
theorem opField_and_usedBits (w : Word) (op : Nat) : opField (w &&& usedBits op) = opField w := by
  have hmask : opField (usedBits op) = BitVec.allOnes 8 := by
    unfold usedBits
    split_ifs <;> rfl
  rw [opField, BitVec.extractLsb'_and, ← opField, ← opField, hmask, BitVec.and_allOnes]

/-- Masking by bits that hold a whole field keeps the field. -/
theorem fieldA_and_low24 (w : Word) : fieldA (w &&& 0x00FFFFFF) = fieldA w := by
  rw [fieldA, BitVec.extractLsb'_and]
  exact BitVec.and_allOnes

theorem fieldB_and_low24 (w : Word) : fieldB (w &&& 0x00FFFFFF) = fieldB w := by
  rw [fieldB, BitVec.extractLsb'_and]
  exact BitVec.and_allOnes

/-- Settles O4: shapes RRR and RI use the whole word, shape RR its lower three fields, and shape N the opcode alone. -/
theorem ignoredBitsDoNotMatter : Obligations.IgnoredBitsDoNotMatter := by
  intro nreg w v h
  rw [← toNat_opField] at h
  have hop : opField v = opField w := by
    rw [← opField_and_usedBits v, ← h, opField_and_usedBits]
  have whole (hu : usedBits (opField w).toNat = BitVec.allOnes 32) : decodeSRE nreg w = decodeSRE nreg v := by
    rw [hu, BitVec.and_allOnes, BitVec.and_allOnes] at h
    rw [h]
  cases opcodeShape (opField w) with
  | n ho decode => rw [decodeSRE, decodeSRE, decode nreg w rfl, decode nreg v hop]
  | rrr mk ho decode => exact whole (usedBits_eq_allOnes (by omega))
  | rr mk ho decode =>
    rw [usedBits_eq_low24 ho] at h
    have hA : fieldA w = fieldA v := by rw [← fieldA_and_low24, h, fieldA_and_low24]
    have hB : fieldB w = fieldB v := by rw [← fieldB_and_low24, h, fieldB_and_low24]
    rw [decodeSRE, decodeSRE, decode nreg w rfl, decode nreg v hop, decodeRR, decodeRR, hA, hB]
  | ri mk ho decode => exact whole (usedBits_eq_allOnes (by omega))
  | unassigned ho decode => exact whole (usedBits_eq_allOnes (by omega))

/-! ### A word from its fields (R56) -/

theorem pack_fields (w : Word) : fieldC w ++ fieldB w ++ fieldA w ++ opField w = w := by
  apply BitVec.eq_of_toNat_eq
  rw [toNat_pack, toNat_fieldC, toNat_fieldB, toNat_fieldA, toNat_opField]
  omega

theorem packImm_fields (w : Word) : fieldImm w ++ fieldA w ++ opField w = w := by
  apply BitVec.eq_of_toNat_eq
  rw [toNat_packImm, toNat_fieldImm, toNat_fieldA, toNat_opField]
  omega

theorem toNat_and_low24 (w : Word) : (w &&& 0x00FFFFFF).toNat = w.toNat % 2 ^ 24 := by
  rw [BitVec.toNat_and]
  exact Nat.and_two_pow_sub_one_eq_mod w.toNat 24

theorem toNat_and_low8 (w : Word) : (w &&& 0x000000FF).toNat = w.toNat % 2 ^ 8 := by
  rw [BitVec.toNat_and]
  exact Nat.and_two_pow_sub_one_eq_mod w.toNat 8

theorem pack_fields_low24 (w : Word) : (0 : Byte) ++ fieldB w ++ fieldA w ++ opField w = w &&& 0x00FFFFFF := by
  apply BitVec.eq_of_toNat_eq
  rw [toNat_pack, toNat_and_low24, toNat_fieldB, toNat_fieldA, toNat_opField, show (0 : Byte).toNat = 0 from rfl]
  omega

theorem pack_fields_low8 (w : Word) : (0 : BitVec 24) ++ opField w = w &&& 0x000000FF := by
  apply BitVec.eq_of_toNat_eq
  rw [toNat_packN, toNat_and_low8, toNat_opField]
  exact Nat.zero_add _

/-- The low half of a sign-extended constant is the constant. -/
theorem extractLsb'_signExtend (f : BitVec 16) : (f.signExtend 32).extractLsb' 0 16 = f := by
  ext k hk
  rw [BitVec.getElem_extractLsb' hk, Nat.zero_add, BitVec.getLsbD_signExtend]
  simp [hk, Nat.lt_of_lt_of_le hk]

/-- Settles O3: by cases on the shape, whose fields are the codes of the registers they decode to. -/
theorem encodeOfDecodeClearsIgnoredBits : Obligations.EncodeOfDecodeClearsIgnoredBits := by
  intro nreg w i _ h
  rw [Instr.wellFormed, registersExist_of_decodeSRE h, Bool.true_and, ← toNat_opField]
  rw [decodeSRE_eq_some] at h
  cases opcodeShape (opField w) with
  | n ho decode encode =>
    rw [decode nreg w rfl] at h
    cases h
    rw [encode, encodeN, ho, pack_fields_low8]
    exact ⟨rfl, rfl⟩
  | rrr mk ho decode encode fits =>
    rw [decode nreg w rfl, decodeRRR_eq_ok] at h
    obtain ⟨a, ha, b, hb, c, hc, rfl⟩ := h
    rw [encode, encodeRRR, code_of_regOfField ha, code_of_regOfField hb, code_of_regOfField hc, pack_fields,
      usedBits_eq_allOnes (by omega), BitVec.and_allOnes]
    exact ⟨fits a b c, rfl⟩
  | rr mk ho decode encode fits =>
    rw [decode nreg w rfl, decodeRR_eq_ok] at h
    obtain ⟨a, ha, b, hb, rfl⟩ := h
    rw [encode, encodeRR, code_of_regOfField ha, code_of_regOfField hb, pack_fields_low24, usedBits_eq_low24 ho]
    exact ⟨fits a b, rfl⟩
  | ri mk ho decode encode fits =>
    rw [decode nreg w rfl, decodeRI_eq_ok] at h
    obtain ⟨a, ha, rfl⟩ := h
    rw [encode, encodeRI, code_of_regOfField ha, fits, immediateFits16, extractLsb'_signExtend, packImm_fields,
      usedBits_eq_allOnes (by omega), BitVec.and_allOnes]
    exact ⟨decide_eq_true rfl, rfl⟩
  | unassigned ho decode =>
    rw [decode nreg w rfl] at h
    cases h

end Sys2Proof.Machine

namespace Sys2Proof.Machine

/-! ### The step algorithm (40_sequencer.md R71, R72, R87; 60_exceptions.md R154, R155) -/

/-- A Running core whose fetch or decode faults takes that fault, whatever the decoder (R71). -/
theorem stepWith_of_fetchDecode_error {decode : Decoder} {s : State} {c : FaultCause} (hr : s.run = .running)
    (h : fetchDecode decode s = .error c) : stepWith decode s = .next (s.raise c) := by
  rw [stepWith, hr, h]

/-- A Running core executes what it fetches and decodes, whatever the decoder (R71). -/
theorem stepWith_of_fetchDecode_ok {decode : Decoder} {s : State} {i : Instr} (hr : s.run = .running)
    (h : fetchDecode decode s = .ok i) : stepWith decode s = exec i s := by
  rw [stepWith, hr, h]

/-- Settles O11: what is fetched in bounds and decodes is what fetch and decode hand to the execution. -/
theorem stepRunsDecodedInstruction : Obligations.StepRunsDecodedInstruction :=
  ⟨fun _ _ => step_of_fetches, fun _ _ _ hr hb hd => stepWith_of_fetchDecode_ok hr (fetchDecode_of_decodes hb hd)⟩

/-- Settles O13: the fetch is the first stage, and it faults. -/
theorem fetchOutsideMemoryFaults : Obligations.FetchOutsideMemoryFaults := fun _ _ hr hb =>
  stepWith_of_fetchDecode_error hr (fetchDecode_of_not_inBounds (Nat.not_le.2 hb))

/-- Settles O14: the fetch succeeds, and the decode faults on its word. -/
theorem undecodedWordFaults : Obligations.UndecodedWordFaults := fun _ _ hr hb hd =>
  stepWith_of_fetchDecode_error hr (fetchDecode_of_undecoded hb hd)

/-- Settles O15: a Running core takes a fault or executes an instruction, and every instruction answers a next state. -/
theorem stepsExactlyWhileRunning : Obligations.StepsExactlyWhileRunning := by
  refine ⟨fun s hr => ?_, fun s record hr => by rw [step, stepWith, hr]⟩
  cases hf : fetchDecode referenceDecoder s with
  | error c => exact ⟨_, stepWith_of_fetchDecode_error hr hf⟩
  | ok i =>
    obtain ⟨t, ht, -⟩ := exec_effect i s
    exact ⟨t, (stepWith_of_fetchDecode_ok hr hf).trans ht⟩

/-- Settles O16: a step that ends Faulted is a fault taken from the state before it. -/
theorem faultRollsBackWholeStep : Obligations.FaultRollsBackWholeStep := by
  intro s t record h hr
  obtain ⟨c, rfl⟩ := eq_raise_of_step_faulted h hr
  rw [State.raise_run] at hr
  cases hr
  exact ⟨rfl, rfl⟩

/-- From a Running core, an instruction that ends Faulted has raised one of its own execution faults. -/
theorem Effect.execFault_of_faulted {s t : State} {i : Instr} {record : FaultRecord} (he : Effect s i t)
    (hs : s.run = .running) (hr : t.run = .faulted record) : ExecFault s i record.cause := by
  cases he with
  | advance => simp [hs] at hr
  | write _ _ => simp [hs] at hr
  | storeWord _ => simp [hs] at hr
  | storeByte _ => simp [hs] at hr
  | fault h =>
    cases hr
    exact h

/-- A step whose fetch or decode faults records that fault. -/
theorem cause_of_fetchDecode_error {s t : State} {record : FaultRecord} {c : FaultCause} (h : step s = .next t)
    (hr : t.run = .faulted record) (hc : fetchDecode referenceDecoder s = .error c) : record.cause = c := by
  have hstep : step s = .next (s.raise c) := stepWith_of_fetchDecode_error (stepWith_cases h).1 hc
  rw [h] at hstep
  cases hstep
  cases hr
  rfl

/-- Settles O17: the first stage that faults decides the cause; the third clause lists the execution faults. -/
theorem faultPriorityOrder : Obligations.FaultPriorityOrder := by
  refine fun s t record h hr => ⟨fun hb => ?_, fun hb hd => ?_, fun i hf => ?_⟩
  · exact cause_of_fetchDecode_error h hr (fetchDecode_of_not_inBounds (Nat.not_le.2 hb))
  · exact cause_of_fetchDecode_error h hr (fetchDecode_reference_of_none hb hd)
  · have hfault : ExecFault s i record.cause := (effect_of_step hf h).execFault_of_faulted hf.running hr
    generalize record.cause = c at hfault
    cases hfault with
    | ldw => exact .inl ⟨_, _, rfl, rfl⟩
    | ldb => exact .inr (.inl ⟨_, _, rfl, rfl⟩)
    | stw => exact .inr (.inr (.inl ⟨_, _, rfl, rfl⟩))
    | stb => exact .inr (.inr (.inr (.inl ⟨_, _, rfl, rfl⟩)))
    | lsh => exact .inr (.inr (.inr (.inr (.inl ⟨_, _, _, rfl, rfl⟩))))
    | ash => exact .inr (.inr (.inr (.inr (.inr ⟨_, _, _, rfl, rfl⟩))))

/-- The step call returns the instruction of a completed step (R76). -/
theorem report_of_completed {s t : State} {i : Instr} (hf : Fetches s i) (h : exec i s = .next t)
    (hr : t.run = .running) : s.report = .executed i := by
  simp only [State.report, reportWith, hf.running, (fetchDecode_reference_eq_ok hf.running).2 hf, h, hr]

/-- The step call returns the fault an instruction takes (R155). -/
theorem report_of_faulted {s t : State} {i : Instr} {record : FaultRecord} (hf : Fetches s i) (h : exec i s = .next t)
    (hr : t.run = .faulted record) : s.report = .fault record := by
  simp only [State.report, reportWith, hf.running, (fetchDecode_reference_eq_ok hf.running).2 hf, h, hr]

/-- Settles O26: the report follows the same stages as the step. -/
theorem reportTellsWhatStepDid : Obligations.ReportTellsWhatStepDid := by
  refine ⟨fun s t i hf h hr => report_of_completed hf (step_of_fetches hf ▸ h) hr, fun s t record h hr => ?_⟩
  obtain ⟨hs, ⟨c, hc, rfl⟩ | ⟨i, hi, hexec⟩⟩ := stepWith_cases h
  · cases hr
    rw [State.report, reportWith, hs, hc]
  · exact report_of_faulted ((fetchDecode_reference_eq_ok hs).1 hi) hexec hr

/-! ### Placing a word where the next step fetches (log 8) -/

/-- Below the limit, loading the four bytes of a word stores the word. -/
theorem Memory.load_word {limit a : Nat} (h : a + 4 ≤ limit) (m : Memory) (w : Word) :
    Memory.load limit m a [byteOfWord w 0, byteOfWord w 1, byteOfWord w 2, byteOfWord w 3] = m.writeWord a w := by
  have h0 : a < limit := by omega
  have h1 : a + 1 < limit := by omega
  have h2 : a + 2 < limit := by omega
  have h3 : a + 3 < limit := by omega
  simp only [Memory.load, h0, h1, h2, h3, if_true, Memory.writeWord]

theorem State.withFetchWord_mem {s : State} (h : s.pc.toNat + 4 ≤ s.cfg.memSize) (w : Nat) :
    (s.withFetchWord 32 w).mem = s.mem.writeWord s.pc.toNat (BitVec.ofNat 32 w) := by
  have hw : tableWord 32 w = BitVec.ofNat 32 w := BitVec.eq_of_toNat_eq (by simp [tableWord])
  rw [State.withFetchWord, hw]
  exact Memory.load_word h s.mem _

/-- The word just written is the little-endian word there. -/
theorem littleEndianWord_writeWord (m : Memory) (a : Nat) (v : Word) : littleEndianWord (m.writeWord a v) a = v := by
  rw [← Memory.readWord_eq_littleEndianWord, Memory.readWord_writeWord]

/-- Settles O12: the placed word is the one the core fetches. -/
theorem placedWordRunsNext : Obligations.PlacedWordRunsNext := by
  intro s w i hb hd
  have hmem := State.withFetchWord_mem hb w
  refine ⟨step_of_fetches ⟨rfl, hb, ?_⟩, fun r => by cases r <;> rfl, fun a ha => ?_⟩
  · rw [hmem]
    exact (congrArg _ (littleEndianWord_writeWord _ _ _)).trans hd
  · rw [hmem, Memory.read_writeWord_of_outside ha]

/-! ### What an instruction and a step can touch (40_sequencer.md R74, R79; 20_memory.md R47, R49) -/

/-- An effect changes no general register but the destination. -/
theorem Effect.readReg_eq {s t : State} {i : Instr} (he : Effect s i t) {r : Reg} (hpc : r ≠ .pc)
    (hd : i.destination ≠ some r) : t.readReg r = s.readReg r := by
  have hadv : s.advance.readReg r = s.readReg r := State.readReg_writeReg_of_ne hpc _
  cases he with
  | advance => exact hadv
  | @write _ rA hw v =>
    have hne : r ≠ rA := fun e => hd (e ▸ hw)
    rw [State.readReg_writeReg_of_ne hne, hadv]
  | storeWord _ => rw [State.readReg_with_mem, hadv]
  | storeByte _ => rw [State.readReg_with_mem, hadv]
  | fault _ => exact State.raise_readReg s _ r

/-- An effect that changes a byte is a store's, to one of the bytes at its address. -/
theorem Effect.store_of_read_ne {s t : State} {i : Instr} (he : Effect s i t) {a : Nat}
    (ha : t.mem.read a ≠ s.mem.read a) :
    (∃ rA rB, i = .stw rA rB ∧ (s.operand rA).toNat ≤ a ∧ a < (s.operand rA).toNat + 4) ∨
      (∃ rA rB, i = .stb rA rB ∧ a = (s.operand rA).toNat) := by
  cases he with
  | advance => exact absurd rfl ha
  | write _ v => exact absurd (by simp) ha
  | @storeWord rA rB _ =>
    refine .inl ⟨rA, rB, rfl, ?_⟩
    by_contra hout
    exact ha (Memory.read_writeWord_of_outside (by omega) s.mem _)
  | @storeByte rA rB _ =>
    refine .inr ⟨rA, rB, rfl, ?_⟩
    by_contra hne
    exact ha (Memory.read_write_of_ne hne s.mem _)
  | fault _ => exact absurd rfl ha

/-- An effect that changes memory changes no register but by the advance. -/
theorem Effect.readReg_eq_operand_of_read_ne {s t : State} {i : Instr} (he : Effect s i t) {a : Nat}
    (ha : t.mem.read a ≠ s.mem.read a) (r : Reg) : t.readReg r = s.operand r := by
  cases he with
  | advance => exact absurd rfl ha
  | write _ v => exact absurd (by simp) ha
  | storeWord _ => rw [State.readReg_with_mem, State.readReg_advance]
  | storeByte _ => rw [State.readReg_with_mem, State.readReg_advance]
  | fault _ => exact absurd rfl ha

theorem Effect.cfg_eq {s t : State} {i : Instr} (he : Effect s i t) : t.cfg = s.cfg := by
  cases he with
  | write _ v => exact State.writeReg_cfg ..
  | _ => rfl

/-- Settles O19, from the instruction's effect. -/
theorem oneDestinationPerInstruction : Obligations.OneDestinationPerInstruction := by
  intro i s t h
  have he : Effect s i t := effect_of_exec h
  refine ⟨fun r => he.readReg_eq, fun ⟨a, ha⟩ => ?_, he.cfg_eq⟩
  have hregs := he.readReg_eq_operand_of_read_ne ha
  rcases he.store_of_read_ne ha with ⟨rA, rB, rfl, -⟩ | ⟨rA, rB, rfl, -⟩
  · exact ⟨rfl, nofun, hregs⟩
  · exact ⟨rfl, nofun, hregs⟩

/-- Settles O20: a step that changes a byte has executed an instruction with that effect. -/
theorem onlyStoresChangeMemory : Obligations.OnlyStoresChangeMemory := by
  intro s t a h ha
  obtain ⟨hr, ⟨c, -, rfl⟩ | ⟨i, hi, hexec⟩⟩ := stepWith_cases h
  · exact absurd rfl ha
  · have hf : Fetches s i := (fetchDecode_reference_eq_ok hr).1 hi
    rcases (effect_of_exec hexec).store_of_read_ne ha with ⟨rA, rB, rfl, hin⟩ | ⟨rA, rB, rfl, hin⟩
    · exact .inl ⟨rA, rB, hf, hin⟩
    · exact .inr ⟨rA, rB, hf, hin⟩

/-- Settles O22: the state after the store fetches the stored word. -/
theorem storeSeenByNextFetch : Obligations.StoreSeenByNextFetch := by
  intro s rA rB j hf ha hb hd
  refine ⟨_, (step_of_fetches hf).trans (exec_stw_operand rB hb), rfl, step_of_fetches ⟨hf.running, ?_, ?_⟩⟩
  · exact ha ▸ hb
  · rw [ha]
    exact (congrArg _ (littleEndianWord_writeWord _ _ _)).trans hd

/-- Shape RRR with a result: the advance, and the result written. -/
theorem execute_binaryOrFault_of_ok {f : Word → Word → Except FaultCause Word} {s : State} {rA rB rC : Reg} {v : Word}
    (h : f (s.advance.readReg rB) (s.advance.readReg rC) = .ok v) :
    execute s (binaryOrFault f rA rB rC) = .next (s.advance.writeReg rA v) :=
  execute_of_ok (by rw [binaryOrFault, h])

/-- Shape RRR with a fault: the fault taken. -/
theorem execute_binaryOrFault_of_error {f : Word → Word → Except FaultCause Word} {s : State} {rA rB rC : Reg}
    {c : FaultCause} (h : f (s.advance.readReg rB) (s.advance.readReg rC) = .error c) :
    execute s (binaryOrFault f rA rB rC) = .next (s.raise c) :=
  execute_of_error (by rw [binaryOrFault, h])

/-- Shape RRR leaves memory and does not look at it. The other shapes of the register instructions are this one with an
operand left unread. -/
theorem execute_binaryOrFault_with_mem {f : Word → Word → Except FaultCause Word} {rA rB rC : Reg} {s t : State}
    (m : Memory) (h : execute s (binaryOrFault f rA rB rC) = .next t) :
    t.mem = s.mem ∧ execute { s with mem := m } (binaryOrFault f rA rB rC) = .next { t with mem := m } := by
  have hread (r : Reg) : ({ s with mem := m } : State).advance.readReg r = s.advance.readReg r := by cases r <;> rfl
  cases hv : f (s.advance.readReg rB) (s.advance.readReg rC) with
  | ok v =>
    rw [execute_binaryOrFault_of_ok hv] at h
    cases h
    refine ⟨State.writeReg_mem _ _ _, ?_⟩
    rw [execute_binaryOrFault_of_ok (by rw [hread, hread, hv])]
    cases rA <;> rfl
  | error c =>
    rw [execute_binaryOrFault_of_error hv] at h
    cases h
    exact ⟨rfl, execute_binaryOrFault_of_error (by rw [hread, hread, hv])⟩

/-- Settles O21: by cases on the instruction, every one but Nop having shape RRR up to operands left unread. -/
theorem registerInstructionsIgnoreMemory : Obligations.RegisterInstructionsIgnoreMemory := by
  intro i s t m hi h
  cases i with
  | nop => cases h; exact ⟨rfl, rfl⟩
  | add a b c => exact execute_binaryOrFault_with_mem (f := fun x y => .ok (x + y)) m h
  | sub a b c => exact execute_binaryOrFault_with_mem (f := fun x y => .ok (x - y)) m h
  | and a b c => exact execute_binaryOrFault_with_mem (f := fun x y => .ok (x &&& y)) m h
  | orr a b c => exact execute_binaryOrFault_with_mem (f := fun x y => .ok (x ||| y)) m h
  | xor a b c => exact execute_binaryOrFault_with_mem (f := fun x y => .ok (x ^^^ y)) m h
  | not a b => exact execute_binaryOrFault_with_mem (f := fun x _ => .ok (~~~x)) (rC := b) m h
  | lsh a b c => exact execute_binaryOrFault_with_mem (f := lshResult s.cfg.shiftOor) m h
  | ash a b c => exact execute_binaryOrFault_with_mem (f := ashResult s.cfg.shiftOor) m h
  | tcu a b c => exact execute_binaryOrFault_with_mem (f := fun x y => .ok (compareUnsigned x y)) m h
  | tcs a b c => exact execute_binaryOrFault_with_mem (f := fun x y => .ok (compareSigned x y)) m h
  | set a imm => exact execute_binaryOrFault_with_mem (f := fun _ _ => .ok imm) (rB := a) (rC := a) m h
  | mov a b => exact execute_binaryOrFault_with_mem (f := fun x _ => .ok x) (rC := b) m h
  | ldw a b => exact absurd rfl (hi a b).1
  | ldb a b => exact absurd rfl (hi a b).2.1
  | stw a b => exact absurd rfl (hi a b).2.2.1
  | stb a b => exact absurd rfl (hi a b).2.2.2

end Sys2Proof.Machine

namespace Sys2Proof.Machine

/-! ### Self-loops and the end of a run (70_reset_and_hazards.md R186) -/

/-- A step that answers the same state repeats it forever. -/
theorem core_run_of_step_self {s : State} (h : step s = .next s) (n : Nat) : core.run n s = .next s := by
  induction n with
  | zero => rfl
  | succ n ih => rw [core_run_succ_of_next n h, ih]

/-- The step at a self-loop changes nothing: its one write restores the pc the advance moved. -/
theorem HoldsSelfLoop.step_self {s : State} {stopPc : Word} (h : HoldsSelfLoop stopPc s) : step s = .next s := by
  obtain ⟨hpc, i, t, hf, hd, hexec, hrun, htpc⟩ := h
  obtain ⟨v, rfl⟩ := (effect_of_exec hexec).eq_writeReg_pc hrun hd
  have hv : v = s.pc := htpc.trans hpc.symm
  rw [step_of_fetches hf, hexec, hv]
  rfl

theorem HoldsSelfLoop.atStop {s : State} {stopPc : Word} (h : HoldsSelfLoop stopPc s) : AtStop stopPc s := by
  obtain ⟨hpc, i, t, hf, -⟩ := h
  exact ⟨hf.running, hpc⟩

/-- Every number of steps from a self-loop completes in the same state. -/
theorem HoldsSelfLoop.completesSteps {s : State} {stopPc : Word} (h : HoldsSelfLoop stopPc s) (n : Nat) :
    CompletesSteps n s s :=
  ⟨core_run_of_step_self h.step_self n, h.atStop.1⟩

/-- Settles O23: the end at 0 steps has no earlier state to compare with. -/
theorem selfLoopRepeatsForever : Obligations.SelfLoopRepeatsForever := fun _ _ h =>
  ⟨fun n => ⟨h.completesSteps n, h.atStop⟩, rfl, h.atStop, fun k _ hk => absurd hk (Nat.not_lt_zero k)⟩

/-- Settles O24: `Set` writes the stop address itself, and `Add` adds −4 to the advanced pc. -/
theorem namedSelfLoops : Obligations.NamedSelfLoops := by
  refine ⟨fun s stopPc hpc hf => ?_, fun s stopPc n hpc hf hn => ?_⟩
  · exact ⟨hpc, _, _, hf, rfl, exec_set s .pc stopPc, hf.running, rfl⟩
  · refine ⟨hpc, _, _, hf, rfl, exec_add s .pc .pc (.r n), hf.running, ?_⟩
    calc s.pc + 4 + s.readReg (.r n) = s.pc + (4 + 0xFFFFFFFC) := by rw [hn, BitVec.add_assoc]
      _ = s.pc := BitVec.add_zero _
      _ = stopPc := hpc

/-- An end is no later than any visit of the stop address. -/
theorem EndsAtStop.le_of_atStop {s t u : State} {stopPc : Word} {m n : Nat} (h : EndsAtStop stopPc n s t)
    (hu : core.run m s = .next u) (hstop : AtStop stopPc u) : n ≤ m :=
  Nat.not_lt.1 fun hlt => h.first m u hlt hu hstop

/-- A run that visits the stop address while Running has an end no later than the visit: the least visit. -/
theorem exists_endsAtStop {s u : State} {stopPc : Word} {m : Nat} (hu : core.run m s = .next u)
    (hstop : AtStop stopPc u) : ∃ n t, n ≤ m ∧ EndsAtStop stopPc n s t := by
  classical
  have hvisit : ∃ n t, core.run n s = .next t ∧ AtStop stopPc t := ⟨m, u, hu, hstop⟩
  obtain ⟨t, ht, hat⟩ := Nat.find_spec hvisit
  exact ⟨Nat.find hvisit, t, Nat.find_min' hvisit ⟨u, hu, hstop⟩, ht, hat,
    fun k v hk hv hvat => Nat.find_min hvisit hk ⟨v, hv, hvat⟩⟩

/-- Settles O47: two ends are each no later than the other, and a self-loop repeats the state of the end. -/
theorem stopEndIsTheFirstVisit : Obligations.StopEndIsTheFirstVisit := by
  refine fun s stopPc => ⟨fun m u => exists_endsAtStop, fun m n t u ht hu => ?_, fun n t ht hloop k => ?_⟩
  · obtain rfl : m = n :=
      Nat.le_antisymm (ht.le_of_atStop hu.reached hu.atStop) (hu.le_of_atStop ht.reached ht.atStop)
    have hsame : (Host.Outcome.next t : Result) = .next u := ht.reached.symm.trans hu.reached
    exact ⟨rfl, Host.Outcome.next.inj hsame⟩
  · obtain ⟨hrun, hrunning⟩ := hloop.completesSteps k
    exact ⟨(core_run_add k ht.reached).trans hrun, hrunning⟩

/-! ### A run over empty memory (70_reset_and_hazards.md R184) -/

/-- The state `k` Nops after construction. -/
def State.constructAt (c : Config) (k : Nat) : State := { State.construct c with pc := BitVec.ofNat 32 (4 * k) }

theorem State.toNat_constructAt_pc {c : Config} {k : Nat} (h : 4 * k < 2 ^ 32) :
    (State.constructAt c k).pc.toNat = 4 * k := by
  rw [State.constructAt, BitVec.toNat_ofNat, Nat.mod_eq_of_lt h]

/-- Every word of empty memory is 0. -/
theorem littleEndianWord_nil (a : Nat) : littleEndianWord [] a = 0 := by
  simp [littleEndianWord, Memory.unlisted]

/-- Empty memory holds a Nop at every address in bounds. -/
theorem fetches_nop_constructAt {c : Config} (hc : c.wf) {k : Nat} (hk : 4 * k + 4 ≤ c.memSize) :
    Fetches (State.constructAt c k) .nop := by
  obtain ⟨-, hmax, -⟩ := hc
  refine ⟨rfl, ?_, decodeSRE_of_opField_zero _ (congrArg opField (littleEndianWord_nil _))⟩
  rw [State.toNat_constructAt_pc (by omega)]
  exact hk

theorem step_constructAt {c : Config} (hc : c.wf) {k : Nat} (hk : 4 * k + 4 ≤ c.memSize) :
    step (State.constructAt c k) = .next (State.constructAt c (k + 1)) := by
  have hpc : BitVec.ofNat 32 (4 * k) + 4 = BitVec.ofNat 32 (4 * (k + 1)) := (BitVec.ofNat_add ..).symm
  rw [step_of_fetches (fetches_nop_constructAt hc hk), exec_nop, State.constructAt, State.constructAt, ← hpc]
  rfl

theorem completesSteps_constructAt {c : Config} (hc : c.wf) {k : Nat} (hk : 4 * k ≤ c.memSize) :
    CompletesSteps k (State.construct c) (State.constructAt c k) := by
  induction k with
  | zero => exact ⟨rfl, rfl⟩
  | succ k ih =>
    obtain ⟨hrun, -⟩ := ih (by omega)
    exact ⟨(core_run_add 1 hrun).trans (core_run_succ_of_next 0 (step_constructAt hc (by omega))), rfl⟩

/-- Settles O25: by induction on the number of Nops, and the fetch fault beyond the last. -/
theorem emptyMemoryRunsNops : Obligations.EmptyMemoryRunsNops := by
  refine fun c k hc hk => ⟨completesSteps_constructAt hc hk, fun hend hlt => ?_⟩
  refine fetchOutsideMemoryFaults referenceDecoder (State.constructAt c k) rfl ?_
  rw [State.toNat_constructAt_pc hlt]
  exact hend

/-! ### Identifiers (10_state.md R16, R21; 30_encoding.md R53) -/

/-- The enumeration holds exactly the registers that exist. -/
theorem mem_identifiers_iff {nreg : Nat} {r : Reg} : r ∈ identifiers nreg ↔ r.existsIn nreg = true := by
  cases r with
  | r n => simp [identifiers, Reg.existsIn]
  | pc => simp [identifiers, Reg.existsIn]

theorem registersExist_iff {nreg : Nat} {i : Instr} :
    i.registersExist nreg = true ↔ ∀ r ∈ i.registers, r ∈ identifiers nreg := by
  simp only [Instr.registersExist, List.all_eq_true, mem_identifiers_iff]

/-- Settles O46: what fetch and decode give names registers that exist, and a completed step has executed it. -/
theorem decodedOperandsAreIdentifiers : Obligations.DecodedOperandsAreIdentifiers := by
  refine ⟨fun _ d => registersExist_iff.1 d.registersExist, fun _ i hi => ⟨⟨i, registersExist_iff.2 hi⟩, rfl⟩,
    fun _ => mem_identifiers_iff.2 rfl, map_instr_referenceDecoder, fun decode s t h hr => ?_⟩
  obtain ⟨-, ⟨c, -, rfl⟩ | ⟨i, hi, hexec⟩⟩ := stepWith_cases h
  · cases hr
  · exact ⟨i, hi, registersExist_iff.1 (registersExist_of_fetchDecode hi), hexec⟩

/-- Settles O27: entry `n` of the enumeration is R_n, and the last is PC. -/
theorem registersReadInOrdinalOrder : Obligations.RegistersReadInOrdinalOrder := by
  refine fun s => ⟨by simp [State.registersInOrder, identifiers], fun n hn => ?_, ?_⟩
  · simp [State.registersInOrder, identifiers, List.getElem?_append_left, hn]
  · simp [State.registersInOrder, identifiers]

/-! ### Single words and jumps -/

/-- Settles O1: each word is decoded by evaluation. -/
theorem sreWordsDecode : Obligations.SreWordsDecode := by
  unfold Obligations.SreWordsDecode
  decide

/-- Settles O28: byte `j` of a packed word is the byte packed there. -/
theorem bytesOfAWordInMemory : Obligations.BytesOfAWordInMemory := by
  intro m w j hj
  have h0 := (m.read w).isLt
  have h1 := (m.read (w + 1)).isLt
  have h2 := (m.read (w + 2)).isLt
  have h3 := (m.read (w + 3)).isLt
  rw [Memory.readWord, wordOfBytes, toNat_pack]
  interval_cases j
  · rw [Nat.add_zero]
    omega
  all_goals omega

/-- Settles O41: the sum of the advanced pc and the register, whose signed and unsigned readings agree modulo 2^32. -/
theorem addToPcJumpsRelative : Obligations.AddToPcJumpsRelative := by
  refine fun s n => ⟨_, exec_add s .pc .pc (.r n), ?_, fun k => rfl, rfl, rfl, rfl⟩
  calc s.pc + 4 + s.readReg (.r n)
      = BitVec.ofInt 32 s.pc.toNat + BitVec.ofInt 32 4 + BitVec.ofInt 32 (s.readReg (.r n)).toInt := by
        rw [BitVec.ofInt_toInt, BitVec.ofInt_natCast, BitVec.ofNat_toNat, BitVec.setWidth_eq]
        rfl
    _ = BitVec.ofInt 32 ((s.pc.toNat : Int) + 4 + (s.readReg (.r n)).toInt) := by
        rw [BitVec.ofInt_add, BitVec.ofInt_add]

end Sys2Proof.Machine

namespace Sys2Proof.Machine

/-! ### The direction and the magnitude of a shift (41_alu.md R97) -/

theorem shiftDir_of_nonneg {c : Word} (h : 0 ≤ c.toInt) : shiftDir c = .left := if_pos h

theorem shiftDir_of_neg {c : Word} (h : c.toInt < 0) : shiftDir c = .right := if_neg (Int.not_le.2 h)

theorem shiftMagnitude_of_nonneg {c : Word} (h : 0 ≤ c.toInt) : shiftMagnitude c = c.toInt.toNat := by
  rw [shiftMagnitude, signed32]
  omega

theorem shiftMagnitude_of_neg {c : Word} (h : c.toInt < 0) : shiftMagnitude c = (-c.toInt).toNat := by
  rw [shiftMagnitude, signed32]
  omega

/-! ### Shifted words as numbers (41_alu.md R98, R99) -/

theorem shiftLeft_eq_ofNat (b : Word) (k : Nat) : b <<< k = BitVec.ofNat 32 (b.toNat * 2 ^ k) := by
  apply BitVec.eq_of_toNat_eq
  rw [BitVec.toNat_shiftLeft, BitVec.toNat_ofNat, Nat.shiftLeft_eq]

theorem ushiftRight_eq_ofNat (b : Word) (k : Nat) : b >>> k = BitVec.ofNat 32 (b.toNat / 2 ^ k) := by
  rw [← Nat.shiftRight_eq_div_pow, ← BitVec.toNat_ushiftRight, BitVec.ofNat_toNat, BitVec.setWidth_eq]

/-- Multiplying the signed reading by a power of two, wrapped, has the bits of the left shift (D10). -/
theorem ofInt_toInt_mul_two_pow (b : Word) (k : Nat) : BitVec.ofInt 32 (b.toInt * 2 ^ k) = b <<< k := by
  have hpow : BitVec.ofInt 32 (2 ^ k) = BitVec.twoPow 32 k := by
    apply BitVec.eq_of_toNat_eq
    rw [BitVec.toNat_ofInt, BitVec.toNat_twoPow]
    norm_cast
  rw [BitVec.ofInt_mul, BitVec.ofInt_toInt, BitVec.shiftLeft_eq_mul_twoPow, hpow]

/-- Dividing the signed reading by a power of two, rounding toward −∞, is the shift that copies the sign. -/
theorem ofInt_fdiv_two_pow (b : Word) (k : Nat) :
    BitVec.ofInt 32 (Int.fdiv b.toInt (2 ^ k)) = b.sshiftRight k := by
  rw [BitVec.sshiftRight, Int.shiftRight_eq_div_pow, Int.fdiv_eq_ediv_of_nonneg _ (by positivity)]
  norm_cast

/-! ### The results of Lsh and Ash by range of the amount (41_alu.md R98–R100) -/

theorem lshResult_left (mode : ShiftOor) (b : Word) {c : Word} (h0 : 0 ≤ c.toInt) (h31 : c.toInt ≤ 31) :
    lshResult mode b c = .ok (b <<< c.toInt.toNat) := by
  rw [lshResult, shiftDir_of_nonneg h0, shiftMagnitude_of_nonneg h0, if_pos (by omega), lshInRange]

theorem lshResult_right (mode : ShiftOor) (b : Word) {c : Word} (h31 : -31 ≤ c.toInt) (h0 : c.toInt < 0) :
    lshResult mode b c = .ok (b >>> (-c.toInt).toNat) := by
  rw [lshResult, shiftDir_of_neg h0, shiftMagnitude_of_neg h0, if_pos (by omega), lshInRange]

theorem ashResult_left (mode : ShiftOor) (b : Word) {c : Word} (h0 : 0 ≤ c.toInt) (h31 : c.toInt ≤ 31) :
    ashResult mode b c = .ok (b <<< c.toInt.toNat) := by
  rw [ashResult, shiftDir_of_nonneg h0, shiftMagnitude_of_nonneg h0, if_pos (by omega), ashInRange,
    ← ofInt_toInt_mul_two_pow]
  rfl

theorem ashResult_right (mode : ShiftOor) (b : Word) {c : Word} (h31 : -31 ≤ c.toInt) (h0 : c.toInt < 0) :
    ashResult mode b c = .ok (b.sshiftRight (-c.toInt).toNat) := by
  rw [ashResult, shiftDir_of_neg h0, shiftMagnitude_of_neg h0, if_pos (by omega), ashInRange,
    ← ofInt_fdiv_two_pow, Int.fdiv_eq_ediv_of_nonneg _ (by positivity)]
  rfl

theorem lshResult_outOfRange (mode : ShiftOor) (b : Word) {c : Word} (h : 32 ≤ c.toInt ∨ c.toInt ≤ -32) :
    lshResult mode b c = shiftOOR mode .lsh (shiftDir c) (shiftMagnitude c) b c :=
  if_neg (Nat.not_le.2 (le_shiftMagnitude_iff.2 h))

theorem ashResult_outOfRange (mode : ShiftOor) (b : Word) {c : Word} (h : 32 ≤ c.toInt ∨ c.toInt ≤ -32) :
    ashResult mode b c = shiftOOR mode .ash (shiftDir c) (shiftMagnitude c) b c :=
  if_neg (Nat.not_le.2 (le_shiftMagnitude_iff.2 h))

/-! ### What Lsh and Ash do with their results -/

section
variable {s : State} {rA rB rC : Reg} {v : Word} {e : FaultCause}

theorem writesResult_lsh (hA : s.has rA) (h : lshResult s.cfg.shiftOor (s.operand rB) (s.operand rC) = .ok v) :
    WritesResult (.lsh rA rB rC) s rA v :=
  writesResult_of_exec hA (exec_lsh_of_ok (by rwa [State.readReg_advance, State.readReg_advance]))

theorem writesResult_ash (hA : s.has rA) (h : ashResult s.cfg.shiftOor (s.operand rB) (s.operand rC) = .ok v) :
    WritesResult (.ash rA rB rC) s rA v :=
  writesResult_of_exec hA (exec_ash_of_ok (by rwa [State.readReg_advance, State.readReg_advance]))

theorem takesFault_lsh (h : lshResult s.cfg.shiftOor (s.operand rB) (s.operand rC) = .error e) :
    TakesFault (.lsh rA rB rC) s e :=
  exec_lsh_of_error (by rwa [State.readReg_advance, State.readReg_advance])

theorem takesFault_ash (h : ashResult s.cfg.shiftOor (s.operand rB) (s.operand rC) = .error e) :
    TakesFault (.ash rA rB rC) s e :=
  exec_ash_of_error (by rwa [State.readReg_advance, State.readReg_advance])

/-- Under `fault`, Lsh out of range takes the shift fault (R100). -/
theorem takesFault_lsh_outOfRange (h : 32 ≤ (s.operand rC).toInt ∨ (s.operand rC).toInt ≤ -32)
    (hm : s.cfg.shiftOor = .fault) : TakesFault (.lsh rA rB rC) s (.shiftOutOfRange .lsh (s.operand rC)) :=
  takesFault_lsh (by rw [lshResult_outOfRange _ _ h, hm]; rfl)

/-- Under `fault`, Ash out of range takes the shift fault (R100). -/
theorem takesFault_ash_outOfRange (h : 32 ≤ (s.operand rC).toInt ∨ (s.operand rC).toInt ≤ -32)
    (hm : s.cfg.shiftOor = .fault) : TakesFault (.ash rA rB rC) s (.shiftOutOfRange .ash (s.operand rC)) :=
  takesFault_ash (by rw [ashResult_outOfRange _ _ h, hm]; rfl)

end

/-- Settles O33: by cases on the range of the amount. -/
theorem lshShiftsLogically : Obligations.LshShiftsLogically := by
  refine ⟨spelledRRR_lsh, fun s rA rB rC hs hi => ?_⟩
  have hA : s.has rA := hs.has_of_registersExist hi List.mem_cons_self
  refine ⟨fun h0 h31 => ?_, fun h31 h0 => ?_, takesFault_lsh_outOfRange⟩
  · rw [← shiftLeft_eq_ofNat]
    exact writesResult_lsh hA (lshResult_left _ _ h0 h31)
  · rw [← ushiftRight_eq_ofNat]
    exact writesResult_lsh hA (lshResult_right _ _ h31 h0)

/-- Settles O34: by cases on the range of the amount. -/
theorem ashShiftsArithmetically : Obligations.AshShiftsArithmetically := by
  refine ⟨spelledRRR_ash, fun s rA rB rC hs hi => ?_⟩
  have hA : s.has rA := hs.has_of_registersExist hi List.mem_cons_self
  refine ⟨fun h0 h31 => ?_, fun h31 h0 => ?_, takesFault_ash_outOfRange⟩
  · rw [ofInt_toInt_mul_two_pow]
    exact writesResult_ash hA (ashResult_left _ _ h0 h31)
  · rw [ofInt_fdiv_two_pow]
    exact writesResult_ash hA (ashResult_right _ _ h31 h0)

/-- Settles O35: the left results are the same word, and the right result's bits are those of the arithmetic shift. -/
theorem ashLeftIsLshAshRightCopiesSign : Obligations.AshLeftIsLshAshRightCopiesSign := by
  refine ⟨fun s rA rB rC h0 h31 => ?_, fun s rA rB rC hs hi h31 h0 => ?_⟩
  · rw [← State.readReg_advance] at h0 h31
    rw [exec_ash_of_ok (ashResult_left _ _ h0 h31), exec_lsh_of_ok (lshResult_left _ _ h0 h31)]
  · have hA : s.has rA := hs.has_of_registersExist hi List.mem_cons_self
    refine ⟨_, writesResult_ash hA (ashResult_right _ _ h31 h0), fun j hj => ?_⟩
    rw [BitVec.getLsbD_sshiftRight, Nat.add_comm, BitVec.msb_eq_getLsbD_last]
    simp [Nat.not_le.2 hj]

/-- The saturated Ash, by the signs of its operands (R100). -/
theorem shiftSaturate_ash (b c : Word) :
    shiftSaturate .ash (shiftDir c) b = if c.toInt < 0 ∧ b.toInt < 0 then 0xFFFFFFFF else 0 := by
  have hmsb : b.msb = true ↔ b.toInt < 0 := by rw [BitVec.msb_eq_toInt, decide_eq_true_iff]
  by_cases hc : c.toInt < 0
  · simp only [shiftDir_of_neg hc, shiftSaturate, hmsb, hc, true_and]
  · rw [shiftDir_of_nonneg (Int.not_lt.1 hc), if_neg fun h => hc h.1, shiftSaturate]

/-- The saturated Lsh, in both directions (R100). -/
theorem shiftSaturate_lsh (dir : ShiftDir) (b : Word) : shiftSaturate .lsh dir b = 0 := by
  cases dir <;> rfl

/-- Settles O36: the clauses are the rows of R100, by setting and direction. -/
theorem outOfRangeShiftTable : Obligations.OutOfRangeShiftTable := by
  intro s rA rB rC hs hi
  have hA : s.has rA := hs.has_of_registersExist hi List.mem_cons_self
  refine ⟨fun h => ⟨fun hm => ?_, fun hm => ⟨?_, ?_⟩⟩, fun h hm => ?_, fun h hm => ?_⟩
  · exact ⟨takesFault_lsh_outOfRange h hm, takesFault_ash_outOfRange h hm⟩
  · exact writesResult_lsh hA (by rw [lshResult_outOfRange _ _ h, hm, shiftOOR, shiftSaturate_lsh])
  · exact writesResult_ash hA (by rw [ashResult_outOfRange _ _ h, hm, shiftOOR, shiftSaturate_ash])
  · have h0 : 0 ≤ (s.operand rC).toInt := by omega
    rw [← shiftLeft_eq_ofNat, ← shiftMagnitude_of_nonneg h0]
    exact ⟨writesResult_lsh hA (by rw [lshResult_outOfRange _ _ (.inl h), hm, shiftDir_of_nonneg h0]; rfl),
      writesResult_ash hA (by rw [ashResult_outOfRange _ _ (.inl h), hm, shiftDir_of_nonneg h0]; rfl)⟩
  · have h0 : (s.operand rC).toInt < 0 := by omega
    rw [← ushiftRight_eq_ofNat, ofInt_fdiv_two_pow, ← shiftMagnitude_of_neg h0]
    exact ⟨writesResult_lsh hA (by rw [lshResult_outOfRange _ _ (.inr h), hm, shiftDir_of_neg h0]; rfl),
      writesResult_ash hA (by rw [ashResult_outOfRange _ _ (.inr h), hm, shiftDir_of_neg h0]; rfl)⟩

end Sys2Proof.Machine
